-- ==== Sys2Proof/Word.lean ====
section
/-! DEFINITION. The word types of the unit (00_scope.md R10, R11): every value on a port is a bit vector, bit 0 least significant. -/

namespace Sys2Proof

/-- One byte of the scratch buffer (10_state.md R50). -/
abbrev Byte := BitVec 8

/-- DOC0's `uint32` (00_scope.md R11, `WLEN` of R6). -/
abbrev U32 := BitVec 32

/-- A 64-bit pattern read as an IEEE-754 double (00_scope.md R11, `XLEN_F` of R6). Equality is identity of bits. -/
abbrev F64 := BitVec 64

end Sys2Proof
end

