-- ==== Sys2Proof/Syntax.lean ====
section
/-! DEFINITION. The request format and the six operations (30_encoding.md R80, R84, R86). -/

namespace Sys2Proof

/-- What stands on the three request ports (30_encoding.md R80, 10_state.md R41). -/
structure Request where
  op : BitVec 3
  a  : BitVec 64
  b  : BitVec 64
  deriving DecidableEq, Repr

/-- The operations of 30_encoding.md R86 with the operands of R84. The bits an operation ignores (R85) are not in its
constructor. -/
inductive Instr where
  /-- `DECOMP` (40_word_ops.md R101): `x = A`. -/
  | decomp (x : F64)
  /-- `COMPOSE` (40_word_ops.md R103): `high = A[31:0]`, `low = B[31:0]`. -/
  | compose (high low : U32)
  /-- `HIWORD` (40_word_ops.md R105): `x = A`. -/
  | hiword (x : F64)
  /-- `CPYSGN` (41_copysign.md R111): magnitude source `A`, sign source `B`. -/
  | cpysgn (mag sgn : F64)
  /-- `RRD` (42_range_reduction.md R133): `x = A`. -/
  | rrd (x : F64)
  /-- `SINPI` (42_range_reduction.md R134): `x = A`. -/
  | sinpi (x : F64)
  deriving DecidableEq, Repr

end Sys2Proof
end

