-- ==== Sys2Proof/Decode.lean ====
section
/-! DEFINITION. The decoder, total on every request, and the encoder (30_encoding.md R80, R84 to R89). -/

namespace Sys2Proof

/-- What a request decodes to. -/
inductive Decoded where
  /-- One of the six operations. -/
  | instr (i : Instr)
  /-- Rejected by name: the code is 6 or 7 and selects no operation (30_encoding.md R87). -/
  | reservedOp (op : BitVec 3)
  deriving DecidableEq, Repr

/-- The packed form `REQ = {OP, A, B}`, 131 bits (30_encoding.md R80). -/
def Request.pack (q : Request) : BitVec 131 := q.op ++ q.a ++ q.b

/-- The fields of a packed request: `OP = REQ[130:128]`, `A = REQ[127:64]`, `B = REQ[63:0]` (30_encoding.md R80). -/
def Request.unpack (w : BitVec 131) : Request :=
  { op := w.extractLsb' 128 3, a := w.extractLsb' 64 64, b := w.extractLsb' 0 64 }

/-- The opcode map (30_encoding.md R86) with the operand decode of R84. `OP` alone decides which operation it is, before
any operand is looked at (60_exceptions.md R165). -/
def decode (q : Request) : Decoded :=
  match q.op.toNat with
  | 0 => .instr (.decomp q.a)
  | 1 => .instr (.compose (q.a.extractLsb' 0 32) (q.b.extractLsb' 0 32))
  | 2 => .instr (.hiword q.a)
  | 3 => .instr (.cpysgn q.a q.b)
  | 4 => .instr (.rrd q.a)
  | 5 => .instr (.sinpi q.a)
  | _ => .reservedOp q.op

/-- `decode` of a packed request. -/
def decodeBits (w : BitVec 131) : Decoded := decode (Request.unpack w)

/-- The canonical encoding: the opcode map of 30_encoding.md R86, operands placed by R84, a `U32` zero-extended, every
ignored bit zero (R85). -/
def encode : Instr → Request
  | .decomp x => { op := 0, a := x, b := 0 }
  | .compose high low => { op := 1, a := high.setWidth 64, b := low.setWidth 64 }
  | .hiword x => { op := 2, a := x, b := 0 }
  | .cpysgn mag sgn => { op := 3, a := mag, b := sgn }
  | .rrd x => { op := 4, a := x, b := 0 }
  | .sinpi x => { op := 5, a := x, b := 0 }

/-- `encode` as a packed request. -/
def encodeBits (i : Instr) : BitVec 131 := (encode i).pack

/-- One row of the opcode map (30_encoding.md R86): a request is this operation's when `REQ & mask = pattern`. -/
structure OpcodeRow where
  mnemonic : String
  mask     : BitVec 131
  pattern  : BitVec 131
  deriving DecidableEq, Repr

/-- The opcode map, `mask = 7 << 128` and `pattern = OP << 128` (30_encoding.md R86, opcode_table.json). -/
def opcodeTable : List OpcodeRow :=
  [{ mnemonic := "DECOMP", mask := 0x700000000000000000000000000000000#131, pattern := 0x000000000000000000000000000000000#131 },
   { mnemonic := "COMPOSE", mask := 0x700000000000000000000000000000000#131, pattern := 0x100000000000000000000000000000000#131 },
   { mnemonic := "HIWORD", mask := 0x700000000000000000000000000000000#131, pattern := 0x200000000000000000000000000000000#131 },
   { mnemonic := "CPYSGN", mask := 0x700000000000000000000000000000000#131, pattern := 0x300000000000000000000000000000000#131 },
   { mnemonic := "RRD", mask := 0x700000000000000000000000000000000#131, pattern := 0x400000000000000000000000000000000#131 },
   { mnemonic := "SINPI", mask := 0x700000000000000000000000000000000#131, pattern := 0x500000000000000000000000000000000#131 }]

/-- The mnemonic of an operation (30_encoding.md R86). -/
def mnemonicOf : Instr → String
  | .decomp _ => "DECOMP"
  | .compose _ _ => "COMPOSE"
  | .hiword _ => "HIWORD"
  | .cpysgn _ _ => "CPYSGN"
  | .rrd _ => "RRD"
  | .sinpi _ => "SINPI"

/-- The instruction the decoder reads from the number `w` of `nbits` bits, numbered as spec/opcode_table.json numbers
them: bit 0 is `B[0]`, bit 130 is `OP[2]` (30_encoding.md R80). A number of more than 131 bits is no request
(log entry 13). -/
def decodeTableWord (nbits w : Nat) : Option Instr :=
  if w % 2 ^ nbits < 2 ^ 131 then
    match decodeBits (BitVec.ofNat 131 (w % 2 ^ nbits)) with
    | .instr i => some i
    | .reservedOp _ => none
  else none

end Sys2Proof
end

