-- ==== Sys2Proof/Config.lean ====
section
/-! DEFINITION. What an implementation fixes (00_scope.md R6, R8): the build-time parameters, the two trig functions
and the one free value. -/

namespace Sys2Proof.Config

/-- `SIN64`, the sine primitive the unit consumes and does not contain: a total function of its argument alone
(00_scope.md R8). It has no body, so nothing can be proved of its values (log entry 6). -/
opaque sin64 : F64 → F64

/-- `COS64`, the cosine primitive (00_scope.md R8), as open as `sin64` (log entry 6). -/
opaque cos64 : F64 → F64

/-- Free value: what a requester's `LET` binds to `mulPi` of a NaN or an infinity, which 42_range_reduction.md R129 does not
define. The unit never asks for it (log entry 11). -/
opaque mulPiNotFinite : F64 → F64

/-- The values of `HOST_ENDIAN` (00_scope.md R6; 20_memory.md R61, R64). -/
inductive Endian where
  | little
  | big
  deriving DecidableEq, Repr

/-- The parameters fixed when the unit is built (00_scope.md R6). They are an argument of the machine: `State` carries
them, no step changes them, and every statement holds for all their values (log entry 4). -/
structure Params where
  /-- `HOST_ENDIAN`: the byte order of the scratch buffer, and of nothing else (R9). -/
  hostEndian : Endian
  /-- `HAS_SCRATCH`: whether the hidden buffer `SCR` exists (10_state.md R50). -/
  hasScratch : Bool
  /-- Whether a trig unit is attached to the trig port and honours its contract (70_reset_and_hazards.md R182 (b);
  log entry 5). -/
  trigAttached : Bool
  deriving DecidableEq, Repr

end Sys2Proof.Config
end

