-- ==== Sys2Proof/Machine/State.lean ====
section
/-! DEFINITION. The ports, the hidden buffer and the parameters as plain data (10_state.md R40 to R55), and the state after reset. -/

namespace Sys2Proof.Machine

/-- The produced values of `STATUS` (30_encoding.md R83). -/
inductive Status where
  | ok
  | invalidArg
  | illegalOp
  deriving DecidableEq, Repr

/-- The values of `CLS` (30_encoding.md R83). -/
inductive Cls where
  | finite
  | nan
  deriving DecidableEq, Repr

/-- The produced values of `SEL`: the row of the case table (30_encoding.md R83, 42_range_reduction.md R126). -/
inductive Sel where
  | case0
  | case1
  | case2
  | case3
  | case4
  | case5
  deriving DecidableEq, Repr

/-- The produced values of `PRIM` and `TPRIM` (30_encoding.md R83). -/
inductive Prim where
  | none
  | sin
  | cos
  deriving DecidableEq, Repr

/-- The ten response ports (30_encoding.md R81, 10_state.md R42). -/
structure Response where
  status : Status
  einfo  : BitVec 64
  y      : F64
  hi     : U32
  lo     : U32
  cls    : Cls
  sel    : Sel
  prim   : Prim
  r      : F64
  t      : F64
  deriving DecidableEq, Repr

/-- The outputs of the trig port (30_encoding.md R82, 10_state.md R43). -/
structure TrigOut where
  treq  : Bool
  tprim : Prim
  tu    : F64
  deriving DecidableEq, Repr

/-- What the outside drives during one transaction: the request ports and the trig port's input `TP` (10_state.md R41,
R43). -/
structure Inputs where
  req : Request
  tp  : F64
  deriving DecidableEq, Repr

/-- Byte-addressed storage: (offset, byte) pairs, offsets strictly rising, no listed byte equal to what an unlisted
offset reads as (`Memory.wf`). The unit's only such storage is `SCR`, offsets 0 to 7 (10_state.md R49). -/
abbrev Memory := List Host.Cell

/-- The machine between two transactions. -/
structure State where
  /-- The build-time parameters (00_scope.md R6); no step changes them. -/
  cfg     : Config.Params
  /-- The requester's input values still to be presented, first one first; the model's own field (log entry 1). -/
  pending : List Inputs
  /-- The input ports: `OP`, `A`, `B`, `TP`. -/
  inp     : Inputs
  /-- The response ports. -/
  rsp     : Response
  /-- The trig port's outputs. -/
  trig    : TrigOut
  /-- The hidden scratch buffer `SCR` (10_state.md R50). Where `cfg.hasScratch` is false nothing reads or writes it (log entry 14). -/
  scr     : Memory
  deriving DecidableEq, Repr

/-- Reasons to stop with a fault: none. Both exceptions of the unit end their transaction with a response
(60_exceptions.md R160, R166) and no other failure exists (R164), so the type has no constructor: safe (log entry 8). -/
inductive Fault where
  deriving DecidableEq, Repr

/-- Reasons to refuse an instruction. -/
inductive Refusal where
  /-- Raised by an arm of `exec` whose instruction has no meaning yet; no arm raises it now. Safe. -/
  | notModelled (mnemonic : String)
  deriving DecidableEq, Repr

/-- The response record with every field zero: `STATUS = OK`, `CLS = FINITE`, `SEL = 0`, `PRIM = NONE`
(30_encoding.md R83, R93). Every response is this one with the fields its rule assigns. -/
def Response.zero : Response :=
  { status := .ok, einfo := 0, y := 0, hi := 0, lo := 0, cls := .finite, sel := .case0, prim := .none, r := 0, t := 0 }

/-- The trig port with no request: `TREQ = 0`, `TPRIM = 0`, `TU = 0` (30_encoding.md R82). -/
def TrigOut.idle : TrigOut := { treq := false, tprim := .none, tu := 0 }

/-! The four updates a step makes; `Laws/State.lean` says what each leaves alone. -/

/-- The output ports set: response and trig port. -/
def State.withOutputs (s : State) (r : Response) (o : TrigOut) : State := { s with rsp := r, trig := o }

/-- The scratch buffer set. -/
def State.withScr (s : State) (m : Memory) : State := { s with scr := m }

/-- The wire `TP` set. -/
def State.withTp (s : State) (p : F64) : State := { s with inp := { s.inp with tp := p } }

/-- The input ports and what is still to be presented, set. -/
def State.withInputs (s : State) (i : Inputs) (rest : List Inputs) : State := { s with inp := i, pending := rest }

/-- The machine right after reset (10_state.md R52, 70_reset_and_hazards.md R180). The unit itself has nothing to reset.
The input ports stand at zero (DESIGN CHOICE, log entry 2); the output ports are what R101 gives for that request, which
is all zeros; `SCR` lists nothing (DESIGN CHOICE, log entry 3); the parameters are those of log entries 4 and 5. -/
def State.reset : State :=
  { cfg := { hostEndian := .little, hasScratch := false, trigAttached := true }
    pending := []
    inp := { req := { op := 0, a := 0, b := 0 }, tp := 0 }
    rsp := Response.zero
    trig := TrigOut.idle
    scr := [] }

end Sys2Proof.Machine
end

