-- ==== Sys2Proof/Machine/Operands.lean ====
section
/-! DEFINITION. The F64 format and the primitive functions every rule uses (00_scope.md R14, R16 to R22), and the words of a
pattern as pure functions (40_word_ops.md R100, R102, R104). -/

namespace Sys2Proof.Machine

/-! ## Fields and constants -/

/-- `sign(x) = x[63]` (00_scope.md R14). -/
def signOf (x : F64) : BitVec 1 := x.extractLsb' 63 1

/-- `expo(x) = x[62:52]` (00_scope.md R14). -/
def expo (x : F64) : BitVec 11 := x.extractLsb' 52 11

/-- `frac(x) = x[51:0]` (00_scope.md R14). -/
def frac (x : F64) : BitVec 52 := x.extractLsb' 0 52

/-- `x[62:0]`, the pattern without its sign: what the case table compares (00_scope.md R17). -/
def magBits (x : F64) : BitVec 63 := x.extractLsb' 0 63

/-- `{s, e, f}`, the inverse of the three accessors (00_scope.md R14). -/
def packF64 (s : BitVec 1) (e : BitVec 11) (f : BitVec 52) : F64 := s ++ e ++ f

/-- `{s, 63'b0}`, the zero of sign `s`. -/
def zeroOf (s : BitVec 1) : F64 := packF64 s 0 0

/-- `PI64` (00_scope.md R7). -/
def pi64 : F64 := 0x400921FB54442D18#64

/-- `P`, the integer significand of `PI64`: `val(PI64) = P * 2^-51` (00_scope.md R7). -/
def piSig : Nat := 0x1921FB54442D18

/-- `NAN_OUT` (00_scope.md R6, 42_range_reduction.md R122). -/
def nanOut : F64 := 0x7FF8000000000000#64

/-- The constants of 00_scope.md R18, `C_0` to `C_2`. -/
def c0 : F64 := 0x0000000000000000#64
def c025 : F64 := 0x3FD0000000000000#64
def c05 : F64 := 0x3FE0000000000000#64
def c075 : F64 := 0x3FE8000000000000#64
def c1 : F64 := 0x3FF0000000000000#64
def c125 : F64 := 0x3FF4000000000000#64
def c15 : F64 := 0x3FF8000000000000#64
def c175 : F64 := 0x3FFC000000000000#64
def c2 : F64 := 0x4000000000000000#64

/-- `-1.0` (00_scope.md R18). -/
def cMinus1 : F64 := 0xBFF0000000000000#64

/-- The word masks of 00_scope.md R18: "clear bit 31" and "mask to isolate bit 31". -/
def maskMag : U32 := 0x7FFFFFFF#32
def maskSign : U32 := 0x80000000#32

/-! ## Sign changes and values -/

/-- `fabs(x) = {1'b0, x[62:0]}` (00_scope.md R20). -/
def fabs (x : F64) : F64 := 0#1 ++ magBits x

/-- `fneg(x) = {~x[63], x[62:0]}`, on every pattern (00_scope.md R20). -/
def fneg (x : F64) : F64 := ~~~(signOf x) ++ magBits x

/-- `sig(x) = (M, e)`: integer significand and exponent of a finite pattern (00_scope.md R16). -/
def sig (x : F64) : Nat × Int :=
  if (expo x).toNat = 0 then ((frac x).toNat, -1074)
  else (2 ^ 52 + (frac x).toNat, (expo x).toNat - 1075)

/-- `val(x) = (-1)^sign(x) * M * 2^e` (00_scope.md R16). Every such value is rational, so the rationals serve for R16's
reals exactly (log entry 12). Meant for finite patterns only. -/
def val (x : F64) : ℚ := (-1) ^ (signOf x).toNat * (sig x).1 * 2 ^ (sig x).2

/-! ## Building patterns -/

/-- The bit length of `n`: the `L` with `2^(L-1) <= n < 2^L`, and 0 for 0 (00_scope.md R21). -/
def bitLen (n : Nat) : Nat := if n = 0 then 0 else Nat.log2 n + 1

/-- `n * 2^k` for `k >= 0`, `floor(n / 2^(-k))` otherwise: the shifts of 00_scope.md R21, R22. -/
def shiftNat (n : Nat) (k : Int) : Nat := if 0 ≤ k then n * 2 ^ k.toNat else n / 2 ^ (-k).toNat

/-- The least exponent a significand of `L` bits at exponent `q` can be brought to: `max(q + L - 53, -1074)`
(00_scope.md R21, R22). -/
def targetExp (L : Nat) (q : Int) : Int := max (q + L - 53) (-1074)

/-- A significand `m < 2^53` at exponent `e`, packed: normal when `m >= 2^52`, else subnormal (00_scope.md R21, R22). -/
def packSig (s : BitVec 1) (m : Nat) (e : Int) : F64 :=
  if 2 ^ 52 ≤ m then packF64 s (BitVec.ofNat 11 (e + 1075).toNat) (BitVec.ofNat 52 m)
  else packF64 s 0 (BitVec.ofNat 52 m)

/-- `encx(s, N, q)`: the pattern of sign `s` and magnitude `N * 2^q`, where one exists (00_scope.md R21). -/
def encx (s : BitVec 1) (n : Nat) (q : Int) : F64 :=
  if n = 0 then zeroOf s
  else
    let e := targetExp (bitLen n) q
    packSig s (shiftNat n (q - e)) e

/-- The rounding step of `rne`: `N / 2^sh` to the nearest natural, ties to even (00_scope.md R22). -/
def roundShift (n : Nat) (sh : Int) : Nat :=
  if sh ≤ 0 then n * 2 ^ (-sh).toNat
  else
    let m := n / 2 ^ sh.toNat
    let rem := n % 2 ^ sh.toNat
    let half := 2 ^ (sh.toNat - 1)
    if half < rem ∨ (rem = half ∧ m % 2 = 1) then m + 1 else m

/-- `rne(s, N, q)` for `N >= 1`: the binary64 pattern nearest to `(-1)^s * N * 2^q`, ties to even, gradual underflow
(00_scope.md R22). -/
def rne (s : BitVec 1) (n : Nat) (q : Int) : F64 :=
  let e := targetExp (bitLen n) q
  let m := roundShift n (e - q)
  let e' := if m = 2 ^ 53 then e + 1 else e
  let m' := if m = 2 ^ 53 then 2 ^ 52 else m
  if 2 ^ 52 ≤ m' ∧ 2047 ≤ e' + 1075 then packF64 s 0x7FF#11 0 else packSig s m' e'

/-! ## The words of a pattern -/

/-- `words(x) = (x[63:32], x[31:0])` (40_word_ops.md R100). -/
def words (x : F64) : U32 × U32 := (x.extractLsb' 32 32, x.extractLsb' 0 32)

/-- `fromWords(high, low) = {high, low}` (40_word_ops.md R102). -/
def fromWords (high low : U32) : F64 := high ++ low

/-- `highWord(x) = x[63:32]` (40_word_ops.md R104). -/
def highWord (x : F64) : U32 := x.extractLsb' 32 32

/-- `copySign(mag, sgn)` in the five steps of 41_copysign.md R110. -/
def copySign (mag sgn : F64) : F64 :=
  let w := words mag
  let h1 := w.1 &&& maskMag
  let s := highWord sgn &&& maskSign
  let h2 := h1 ||| s
  fromWords h2 w.2

end Sys2Proof.Machine
end

