-- ==== Sys2Proof/Machine/Flags.lean ====
section
/-! DEFINITION. Classification of a pattern (00_scope.md R15) and the code values of the status-like response fields
(30_encoding.md R83). The unit has no flags (10_state.md R46): `STATUS` belongs to one response only. -/

namespace Sys2Proof.Machine

/-- `isNaN(x)` (00_scope.md R15): quiet and signalling alike (42_range_reduction.md R120). -/
def isNaN (x : F64) : Bool := expo x == 0x7FF#11 && frac x != 0

/-- `isInf(x)` (00_scope.md R15). -/
def isInf (x : F64) : Bool := expo x == 0x7FF#11 && frac x == 0

/-- `isFinite(x)` (00_scope.md R15). -/
def isFinite (x : F64) : Bool := expo x != 0x7FF#11

/-- `isZero(x)` (00_scope.md R15). -/
def isZero (x : F64) : Bool := expo x == 0 && frac x == 0

/-- `isSubnormal(x)` (00_scope.md R15). -/
def isSubnormal (x : F64) : Bool := expo x == 0 && frac x != 0

/-- A quiet NaN has `frac(x)[51] = 1` (00_scope.md R15). The unit makes no use of the difference. -/
def isQuietNaN (x : F64) : Bool := isNaN x && (frac x).extractLsb' 51 1 == 1

/-- A signalling NaN has `frac(x)[51] = 0` (00_scope.md R15). -/
def isSignallingNaN (x : F64) : Bool := isNaN x && (frac x).extractLsb' 51 1 == 0

/-- `isNaN` read off the two words (40_word_ops.md R108). -/
def isNaNWords (high low : U32) : Bool :=
  high &&& 0x7FF00000#32 == 0x7FF00000#32 && (high &&& 0x000FFFFF#32) ||| low != 0

/-- `isInf` read off the two words (40_word_ops.md R108). -/
def isInfWords (high low : U32) : Bool :=
  high &&& 0x7FF00000#32 == 0x7FF00000#32 && (high &&& 0x000FFFFF#32) ||| low == 0

/-- `isFinite` read off the high word (40_word_ops.md R108). -/
def isFiniteWords (high : U32) : Bool := high &&& 0x7FF00000#32 != 0x7FF00000#32

/-- The codes of `STATUS` (30_encoding.md R83). -/
def Status.code : Status → BitVec 2
  | .ok => 0
  | .invalidArg => 1
  | .illegalOp => 2

/-- The codes of `CLS` (30_encoding.md R83). -/
def Cls.code : Cls → BitVec 1
  | .finite => 0
  | .nan => 1

/-- The codes of `SEL` (30_encoding.md R83). -/
def Sel.code : Sel → BitVec 3
  | .case0 => 0
  | .case1 => 1
  | .case2 => 2
  | .case3 => 3
  | .case4 => 4
  | .case5 => 5

/-- The codes of `PRIM` and `TPRIM` (30_encoding.md R83). -/
def Prim.code : Prim → BitVec 2
  | .none => 0
  | .sin => 1
  | .cos => 2

end Sys2Proof.Machine
end

