-- ==== Sys2Proof/Machine/Ops.lean ====
section
/-! DEFINITION. The shared operations: byte storage, the scratch buffer's accesses (20_memory.md R60 to R62, R74), ending a
transaction with a response, raising an exception (60_exceptions.md R166), and the trig exchange (42_range_reduction.md R131). -/

namespace Sys2Proof.Machine

/-! ## Byte storage -/

/-- What an offset that is not listed reads as: 00 (DESIGN CHOICE, log entry 3). -/
def Memory.unlisted : Byte := 0

/-- The byte at offset `a`. -/
def Memory.read : Memory → Nat → Byte
  | [], _ => Memory.unlisted
  | c :: m, a => if c.1 = a then c.2 else Memory.read m a

/-- `m` without offset `a`. -/
def Memory.erase (m : Memory) (a : Nat) : Memory := m.filter (fun c => c.1 ≠ a)

/-- `m` with the cell `c` put before the first larger offset. -/
def Memory.place (c : Host.Cell) : Memory → Memory
  | [] => [c]
  | d :: m => if c.1 < d.1 then c :: d :: m else d :: Memory.place c m

/-- `m` with the byte at offset `a` set to `v`, in canonical form. -/
def Memory.write (m : Memory) (a : Nat) (v : Byte) : Memory :=
  if v = Memory.unlisted then m.erase a else Memory.place (a, v) (m.erase a)

/-- `m` with the bytes of the list stored from offset `a` on. -/
def Memory.writeBytes (m : Memory) (a : Nat) : List Byte → Memory
  | [] => m
  | v :: vs => Memory.writeBytes (m.write a v) (a + 1) vs

/-- Offsets strictly rising. -/
def Memory.rising : Memory → Bool
  | [] => true
  | c :: m => m.all (fun d => c.1 < d.1) && Memory.rising m

/-- The canonical form: offsets strictly rising and inside the buffer's 0 to 7 (10_state.md R49), no listed byte equal
to what an unlisted offset reads as. -/
def Memory.wf (m : Memory) : Bool :=
  m.rising && m.all (fun c => c.1 < 8) && m.all (fun c => c.2 != Memory.unlisted)

/-! ## Accesses of the scratch buffer -/

/-- `HIGH_IDX` (20_memory.md R62). -/
def highIdx : Config.Endian → Nat
  | .little => 1
  | .big => 0

/-- `LOW_IDX` (20_memory.md R62). -/
def lowIdx : Config.Endian → Nat
  | .little => 0
  | .big => 1

/-- The 8 bytes of a 64-bit pattern in the order of their offsets (20_memory.md R61). -/
def bytes64 (e : Config.Endian) (x : F64) : List Byte :=
  match e with
  | .little => [x.extractLsb' 0 8, x.extractLsb' 8 8, x.extractLsb' 16 8, x.extractLsb' 24 8,
      x.extractLsb' 32 8, x.extractLsb' 40 8, x.extractLsb' 48 8, x.extractLsb' 56 8]
  | .big => [x.extractLsb' 56 8, x.extractLsb' 48 8, x.extractLsb' 40 8, x.extractLsb' 32 8,
      x.extractLsb' 24 8, x.extractLsb' 16 8, x.extractLsb' 8 8, x.extractLsb' 0 8]

/-- The 4 bytes of a word in the order of their offsets (20_memory.md R61). -/
def bytes32 (e : Config.Endian) (w : U32) : List Byte :=
  match e with
  | .little => [w.extractLsb' 0 8, w.extractLsb' 8 8, w.extractLsb' 16 8, w.extractLsb' 24 8]
  | .big => [w.extractLsb' 24 8, w.extractLsb' 16 8, w.extractLsb' 8 8, w.extractLsb' 0 8]

/-- `MemWrite(0, 8, x)` (20_memory.md R61). -/
def memWrite64 (e : Config.Endian) (m : Memory) (x : F64) : Memory := m.writeBytes 0 (bytes64 e x)

/-- `MemWrite(4j, 4, w)` (20_memory.md R61), `j` the word index of R60. -/
def memWrite32 (e : Config.Endian) (m : Memory) (j : Nat) (w : U32) : Memory := m.writeBytes (4 * j) (bytes32 e w)

/-- `MemRead(0, 8)` (20_memory.md R61). -/
def memRead64 (e : Config.Endian) (m : Memory) : F64 :=
  match e with
  | .little => m.read 7 ++ m.read 6 ++ m.read 5 ++ m.read 4 ++ m.read 3 ++ m.read 2 ++ m.read 1 ++ m.read 0
  | .big => m.read 0 ++ m.read 1 ++ m.read 2 ++ m.read 3 ++ m.read 4 ++ m.read 5 ++ m.read 6 ++ m.read 7

/-- `MemRead(4j, 4)` (20_memory.md R61). -/
def memRead32 (e : Config.Endian) (m : Memory) (j : Nat) : U32 :=
  match e with
  | .little => m.read (4 * j + 3) ++ m.read (4 * j + 2) ++ m.read (4 * j + 1) ++ m.read (4 * j)
  | .big => m.read (4 * j) ++ m.read (4 * j + 1) ++ m.read (4 * j + 2) ++ m.read (4 * j + 3)

/-! ## The word functions as the unit computes them

With a scratch buffer the words go through it (40_word_ops.md R109, 20_memory.md R74); without one they are slices. Each
function answers its result and the buffer's new content. -/

/-- `words(x)`: one 8-byte store, then both words. -/
def scrWords (p : Config.Params) (m : Memory) (x : F64) : (U32 × U32) × Memory :=
  if p.hasScratch then
    let m' := memWrite64 p.hostEndian m x
    ((memRead32 p.hostEndian m' (highIdx p.hostEndian), memRead32 p.hostEndian m' (lowIdx p.hostEndian)), m')
  else (words x, m)

/-- `highWord(x)`: one 8-byte store, then the high word. -/
def scrHighWord (p : Config.Params) (m : Memory) (x : F64) : U32 × Memory :=
  if p.hasScratch then
    let m' := memWrite64 p.hostEndian m x
    (memRead32 p.hostEndian m' (highIdx p.hostEndian), m')
  else (highWord x, m)

/-- `fromWords(high, low)`: both words stored, then the 8-byte load. -/
def scrFromWords (p : Config.Params) (m : Memory) (high low : U32) : F64 × Memory :=
  if p.hasScratch then
    let m' := memWrite32 p.hostEndian (memWrite32 p.hostEndian m (highIdx p.hostEndian) high) (lowIdx p.hostEndian) low
    (memRead64 p.hostEndian m', m')
  else (fromWords high low, m)

/-- `copySign(mag, sgn)`: the five steps of 41_copysign.md R110 over the three functions above (20_memory.md R74). -/
def scrCopySign (p : Config.Params) (m : Memory) (mag sgn : F64) : F64 × Memory :=
  let w := scrWords p m mag
  let h1 := w.1.1 &&& maskMag
  let hs := scrHighWord p w.2 sgn
  let s := hs.1 &&& maskSign
  let h2 := h1 ||| s
  scrFromWords p hs.2 h2 w.1.2

/-! ## Ending a transaction -/

/-- The transaction ends with response `r` and no trig request (30_encoding.md R82: `TREQ = 0`). -/
def respond (r : Response) (s : State) : Host.Outcome State Fault Refusal :=
  .next (s.withOutputs r TrigOut.idle)

/-- The unit's two exceptions (60_exceptions.md R160). -/
inductive Exc where
  | invalidArgument
  | illegalOp
  deriving DecidableEq, Repr

/-- `code(E)` (60_exceptions.md R160, R166). -/
def excStatus : Exc → Status
  | .invalidArgument => .invalidArg
  | .illegalOp => .illegalOp

/-- The fault response: `STATUS` the exception's code, `EINFO` its information, every other field zero
(60_exceptions.md R166). -/
def faultResponse (e : Exc) (info : BitVec 64) : Response :=
  { Response.zero with status := excStatus e, einfo := info }

/-- `raise E(info)`, taking an exception (60_exceptions.md R166): the fault response, no trig request, nothing saved and
nothing else changed. There is no return from an exception and nothing to restore (R168): the next transaction is
handled as if the fault had not happened. -/
def raise (e : Exc) (info : BitVec 64) (s : State) : Host.Outcome State Fault Refusal :=
  respond (faultResponse e info) s

/-! ## The trig exchange -/

/-- The value on `TP` while the unit asks for primitive `prim` of `u`: the attached trig unit's answer (30_encoding.md
R82), or, with no trig unit attached, whatever stands on the wire (70_reset_and_hazards.md R182 (b)). -/
def trigAnswer (p : Config.Params) (prim : Prim) (u : F64) (tp : F64) : F64 :=
  if p.trigAttached then
    match prim with
    | .none => tp
    | .sin => Config.sin64 u
    | .cos => Config.cos64 u
  else tp

/-- The one exchange of a `SINPI` transaction (42_range_reduction.md R131): `TREQ <- 1`, `TPRIM <- prim`, `TU <- u`,
`p = TP`, and the response is made of `p`, which is not checked. -/
def exchange (prim : Prim) (u : F64) (k : F64 → Response) (s : State) : Host.Outcome State Fault Refusal :=
  let p := trigAnswer s.cfg prim u s.inp.tp
  .next ((s.withTp p).withOutputs (k p) { treq := true, tprim := prim, tu := u })

/-! ## Taking the next request -/

/-- The input ports take the next values the requester presents; with nothing pending they keep the ones they have
(10_state.md R42, 70_reset_and_hazards.md R186; log entry 1). -/
def fetch (s : State) : State :=
  match s.pending with
  | [] => s
  | i :: rest => s.withInputs i rest

/-- A request whose code is reserved: `raise IllegalOp(zext_64(OP))`, whatever the operands (60_exceptions.md R160,
R163). -/
def rejectOp (op : BitVec 3) (s : State) : Host.Outcome State Fault Refusal := raise .illegalOp (op.setWidth 64) s

end Sys2Proof.Machine
end

