-- ==== Sys2Proof/Machine/RangeReduction.lean ====
section
/-! DEFINITION. The modular range-reduction dispatcher: RRD and SINPI (42_range_reduction.md R120 to R134). -/

namespace Sys2Proof.Machine

/-- `fmod2(x)` by the three bands of 42_range_reduction.md R124. Applied to finite patterns only (R123; log entry 11). -/
def fmod2 (x : F64) : F64 :=
  let E := (expo x).toNat
  if E ≤ 1023 then x
  else if 1076 ≤ E then zeroOf (signOf x)
  else
    let K := (frac x).toNat % 2 ^ (1076 - E)
    if K = 0 then zeroOf (signOf x)
    else
      let d := 53 - bitLen K
      packF64 (signOf x) (BitVec.ofNat 11 (E - d)) (BitVec.ofNat 52 (K * 2 ^ d))

/-- The case index of `ar`: the first row, from the top, whose test on the pattern holds (42_range_reduction.md R126). -/
def caseOf (ar : F64) : Sel :=
  let a := magBits ar
  if a = 0 ∨ a = magBits c1 then .case0
  else if a < magBits c025 then .case1
  else if a < magBits c075 then .case2
  else if a < magBits c125 then .case3
  else if a < magBits c175 then .case4
  else .case5

/-- The primitive of a case (42_range_reduction.md R128). -/
def primOf : Sel → Prim
  | .case0 => .none
  | .case1 => .sin
  | .case2 => .cos
  | .case3 => .sin
  | .case4 => .cos
  | .case5 => .sin

/-- `(-1)^sign(x) * M * 2^(e-q)`, the integer `x` is in units of `2^q`, for `q <= e` (42_range_reduction.md R127). -/
def scaledInt (x : F64) (q : Int) : Int := (-1) ^ (signOf x).toNat * ((sig x).1 * 2 ^ ((sig x).2 - q).toNat : Nat)

/-- `fsubx(a, b)`: the exact difference of two finite patterns, `+0` when it is zero (42_range_reduction.md R127). -/
def fsubx (a b : F64) : F64 :=
  let q := min (sig a).2 (sig b).2
  let d := scaledInt a q - scaledInt b q
  if d = 0 then c0 else encx (if d < 0 then 1 else 0) d.natAbs q

/-- The exact trig argument `t` of a case (42_range_reduction.md R127). -/
def trigArg (sel : Sel) (r ar : F64) : F64 :=
  match sel with
  | .case0 => c0
  | .case1 => r
  | .case2 => fsubx c05 ar
  | .case3 => fsubx (copySign c1 r) r
  | .case4 => fsubx ar c15
  | .case5 => fsubx r (copySign c2 r)

/-- `mulPi(t)`: the binary64 product of `PI64` and `t`, rounded to nearest even (42_range_reduction.md R129). -/
def mulPi (t : F64) : F64 :=
  if isZero t then t else rne (signOf t) (piSig * (sig t).1) ((sig t).2 - 51)

/-- `fixup(sel, r, p)`: the part of each formula outside the primitive (42_range_reduction.md R132). -/
def fixup (sel : Sel) (r p : F64) : F64 :=
  match sel with
  | .case0 => copySign c0 r
  | .case1 => p
  | .case2 => copySign p r
  | .case3 => p
  | .case4 => fneg (copySign p r)
  | .case5 => p

/-- `RRD` (42_range_reduction.md R133): classify, reduce and dispatch, without evaluating anything. -/
def execRrd (x : F64) (s : State) : Host.Outcome State Fault Refusal :=
  if isNaN x then respond { Response.zero with cls := .nan } s
  else if isInf x then raise .invalidArgument x s
  else
    let r := fmod2 x
    let ar := fabs r
    let sel := caseOf ar
    respond { Response.zero with r := r, sel := sel, prim := primOf sel, t := trigArg sel r ar } s

/-- `SINPI` (42_range_reduction.md R134): `sin(pi*x)` through one trig request, a signed zero for an integer, `NAN_OUT`
for a NaN, `InvalidArgument` for an infinity. -/
def execSinpi (x : F64) (s : State) : Host.Outcome State Fault Refusal :=
  if isNaN x then respond { Response.zero with y := nanOut } s
  else if isInf x then raise .invalidArgument x s
  else
    let r := fmod2 x
    let ar := fabs r
    let sel := caseOf ar
    if sel = .case0 then respond { Response.zero with y := copySign c0 r } s
    else exchange (primOf sel) (mulPi (trigArg sel r ar)) (fun p => { Response.zero with y := fixup sel r p }) s

end Sys2Proof.Machine
end

