-- ==== Sys2Proof/Machine/SignCopy.lean ====
section
/-! DEFINITION. The sign copier CPYSGN (41_copysign.md R111). -/

namespace Sys2Proof.Machine

/-- `CPYSGN` (41_copysign.md R111): `Y <- copySign(mag, sgn)`. -/
def execCpysgn (mag sgn : F64) (s : State) : Host.Outcome State Fault Refusal :=
  let w := scrCopySign s.cfg s.scr mag sgn
  respond { Response.zero with y := w.1 } (s.withScr w.2)

end Sys2Proof.Machine
end

