-- ==== Sys2Proof/Machine/WordOps.lean ====
section
/-! DEFINITION. The word operations DECOMP, COMPOSE, HIWORD (40_word_ops.md R101, R103, R105). -/

namespace Sys2Proof.Machine

/-- `DECOMP` (40_word_ops.md R101): `HI <- x[63:32]`, `LO <- x[31:0]`. -/
def execDecomp (x : F64) (s : State) : Host.Outcome State Fault Refusal :=
  let w := scrWords s.cfg s.scr x
  respond { Response.zero with hi := w.1.1, lo := w.1.2 } (s.withScr w.2)

/-- `COMPOSE` (40_word_ops.md R103): `Y <- {high, low}`. -/
def execCompose (high low : U32) (s : State) : Host.Outcome State Fault Refusal :=
  let w := scrFromWords s.cfg s.scr high low
  respond { Response.zero with y := w.1 } (s.withScr w.2)

/-- `HIWORD` (40_word_ops.md R105): `HI <- x[63:32]`, `LO` zero. -/
def execHiword (x : F64) (s : State) : Host.Outcome State Fault Refusal :=
  let w := scrHighWord s.cfg s.scr x
  respond { Response.zero with hi := w.1 } (s.withScr w.2)

end Sys2Proof.Machine
end

