-- ==== Sys2Proof/Machine/Dispatch.lean ====
section
/-! DEFINITION. One arm per operation (30_encoding.md R86). -/

namespace Sys2Proof.Machine

def exec (i : Instr) (s : State) : Host.Outcome State Fault Refusal :=
  match i with
  | .decomp x => Sys2Proof.Machine.execDecomp x s
  | .compose high low => Sys2Proof.Machine.execCompose high low s
  | .hiword x => Sys2Proof.Machine.execHiword x s
  | .cpysgn mag sgn => Sys2Proof.Machine.execCpysgn mag sgn s
  | .rrd x => Sys2Proof.Machine.execRrd x s
  | .sinpi x => Sys2Proof.Machine.execSinpi x s

end Sys2Proof.Machine
end

