-- ==== Sys2Proof/Machine/Step.lean ====
section
/-! DEFINITION. One step is one transaction (00_scope.md R13, 20_memory.md R69). -/

namespace Sys2Proof.Machine

/-- The input ports take the requester's next values, the request is decoded, and its operation answers; a reserved code
raises `IllegalOp` (60_exceptions.md R165: from `OP` alone, before any operand). -/
def step (s : State) : Host.Outcome State Fault Refusal :=
  match decode (fetch s).inp.req with
  | .instr i => exec i (fetch s)
  | .reservedOp op => rejectOp op (fetch s)

/-- `s` with the request numbered `w` (as spec/opcode_table.json numbers bits) standing on the request ports and nothing
else pending, so that the next step performs exactly it. -/
def State.withFetchWord (s : State) (nbits w : Nat) : State :=
  s.withInputs { s.inp with req := Request.unpack (BitVec.ofNat 131 (w % 2 ^ nbits)) } []

/-- `s` with the inputs `i` on the input ports and nothing else pending: the requester presents one transaction. -/
def State.present (s : State) (i : Inputs) : State := s.withInputs i []

end Sys2Proof.Machine
end

