-- ==== Sys2Proof/Machine/Script.lean ====
section
/-! DEFINITION. The requester's scripts: sequences of transactions and directives (30_encoding.md R90, R91). Names are the
requester's, not state of the unit (10_state.md R44), so they stand beside State, not in it. -/

namespace Sys2Proof.Machine

/-- A requester-side name. -/
abbrev Name := List Char

/-- The fields of a response (30_encoding.md R81). -/
inductive Field where
  | status
  | einfo
  | y
  | hi
  | lo
  | cls
  | sel
  | prim
  | r
  | t
  deriving DecidableEq, Repr

/-- A requester-side value: a bit vector of stated width (00_scope.md R10). -/
structure Val where
  width : Nat
  bits  : BitVec width
  deriving DecidableEq, Repr

/-- What a name is bound to: a whole response record, or a value computed by the requester. -/
inductive Binding where
  | response (r : Response)
  | value (v : Val)
  deriving DecidableEq, Repr

/-- The names bound so far, the latest first. -/
abbrev Env := List (Name × Binding)

/-- An operand of a line: the named field of an earlier response, a literal, or a value bound by `LET` (30_encoding.md
R90, R91; log entry 15). -/
inductive Source where
  | field (n : Name) (f : Field)
  | lit (v : Val)
  | name (n : Name)
  deriving DecidableEq, Repr

/-- The right side of a `LET`: the operators of 00_scope.md R12 and the functions 30_encoding.md R91 names. -/
inductive Expr where
  | src (s : Source)
  | and (a b : Expr)
  | or (a b : Expr)
  | not (a : Expr)
  | slice (a : Expr) (hi lo : Nat)
  | cat (a b : Expr)
  | mulPi (a : Expr)
  | sin64 (a : Expr)
  | cos64 (a : Expr)
  | fneg (a : Expr)
  deriving DecidableEq, Repr

/-- One line of a script (30_encoding.md R90, R91). `dest` is bound to the whole response. -/
inductive Line where
  | decomp (dest : Name) (x : Source)
  | compose (dest : Name) (high low : Source)
  | hiword (dest : Name) (x : Source)
  | cpysgn (dest : Name) (mag sgn : Source)
  | rrd (dest : Name) (x : Source)
  | sinpi (dest : Name) (x : Source)
  | raw (dest : Name) (op : BitVec 3) (a b : BitVec 64)
  | letBind (n : Name) (e : Expr)
  | expect (n : Name) (f : Field) (v : Source)
  deriving DecidableEq, Repr

/-- A field of a response as a value, at the width of its port and in its code (30_encoding.md R81, R83). -/
def fieldVal (f : Field) (r : Response) : Val :=
  match f with
  | .status => ⟨2, r.status.code⟩
  | .einfo => ⟨64, r.einfo⟩
  | .y => ⟨64, r.y⟩
  | .hi => ⟨32, r.hi⟩
  | .lo => ⟨32, r.lo⟩
  | .cls => ⟨1, r.cls.code⟩
  | .sel => ⟨3, r.sel.code⟩
  | .prim => ⟨2, r.prim.code⟩
  | .r => ⟨64, r.r⟩
  | .t => ⟨64, r.t⟩

/-- What a name is bound to. -/
def lookup (n : Name) : Env → Option Binding
  | [] => none
  | b :: env => if b.1 = n then some b.2 else lookup n env

/-- The value of a source; none where its name is not bound to what the source takes it for. -/
def evalSource (env : Env) (s : Source) : Option Val :=
  match s with
  | .lit v => some v
  | .field n f => match lookup n env with
    | some (.response r) => some (fieldVal f r)
    | _ => none
  | .name n => match lookup n env with
    | some (.value v) => some v
    | _ => none

/-- A function of a 64-bit pattern applied to a value of that width. -/
def onF64 (g : F64 → F64) (v : Val) : Option Val :=
  if v.width = 64 then some ⟨64, g (v.bits.setWidth 64)⟩ else none

/-- `mulPi` in a `LET`: 42_range_reduction.md R129 for a finite pattern; for a NaN or an infinity, where R129 defines no
result, a free value. DESIGN CHOICE (log entry 11): the line is performed and binds that value. -/
def requesterMulPi (t : F64) : F64 := if isFinite t then Sys2Proof.Machine.mulPi t else Config.mulPiNotFinite t

/-- The requester's evaluation of a `LET` (30_encoding.md R91, 00_scope.md R10, R12): AND and OR of equal widths, a slice
inside its vector; `mulPi` of a pattern that is not finite is a free value (log entry 11). -/
def evalExpr (env : Env) : Expr → Option Val
  | .src s => evalSource env s
  | .and a b => do
    let v ← evalExpr env a
    let w ← evalExpr env b
    if v.width = w.width then some ⟨v.width, v.bits &&& w.bits.setWidth v.width⟩ else none
  | .or a b => do
    let v ← evalExpr env a
    let w ← evalExpr env b
    if v.width = w.width then some ⟨v.width, v.bits ||| w.bits.setWidth v.width⟩ else none
  | .not a => do
    let v ← evalExpr env a
    some ⟨v.width, ~~~v.bits⟩
  | .slice a hi lo => do
    let v ← evalExpr env a
    if lo ≤ hi ∧ hi < v.width then some ⟨hi - lo + 1, v.bits.extractLsb' lo (hi - lo + 1)⟩ else none
  | .cat a b => do
    let v ← evalExpr env a
    let w ← evalExpr env b
    some ⟨v.width + w.width, v.bits ++ w.bits⟩
  | .mulPi a => do
    let v ← evalExpr env a
    onF64 requesterMulPi v
  | .sin64 a => do
    let v ← evalExpr env a
    onF64 Config.sin64 v
  | .cos64 a => do
    let v ← evalExpr env a
    onF64 Config.cos64 v
  | .fneg a => do
    let v ← evalExpr env a
    onF64 Sys2Proof.Machine.fneg v

/-- A source as an operand of width `n`: a narrower value zero-extended, the bits the operation ignores left out, a value
wider than an operand port refused (30_encoding.md R84, R90). -/
def operand (n : Nat) (env : Env) (s : Source) : Option (BitVec n) := do
  let v ← evalSource env s
  if v.width ≤ 64 then some (v.bits.setWidth n) else none

/-- The assembler: the name a line binds and the request it makes, ignored bits zero (30_encoding.md R90). A directive
makes no request. -/
def assemble (env : Env) (l : Line) : Option (Name × Request) :=
  match l with
  | .decomp d x => do return (d, encode (.decomp (← operand 64 env x)))
  | .compose d high low => do return (d, encode (.compose (← operand 32 env high) (← operand 32 env low)))
  | .hiword d x => do return (d, encode (.hiword (← operand 64 env x)))
  | .cpysgn d mag sgn => do return (d, encode (.cpysgn (← operand 64 env mag) (← operand 64 env sgn)))
  | .rrd d x => do return (d, encode (.rrd (← operand 64 env x)))
  | .sinpi d x => do return (d, encode (.sinpi (← operand 64 env x)))
  | .raw d op a b => some (d, { op := op, a := a, b := b })
  | .letBind _ _ => none
  | .expect _ _ _ => none

/-- How a script ends. -/
inductive ScriptEnd where
  /-- Every line was performed. -/
  | finished
  /-- A response with `STATUS` not `OK` that the next line does not acknowledge (30_encoding.md R91). -/
  | faulted (dest : Name)
  /-- An `EXPECT` that does not hold (log entry 15). -/
  | unexpected (n : Name) (f : Field)
  /-- A source whose name is unbound, or a value of the wrong width (log entry 15). -/
  | badLine
  /-- The unit refused the instruction; it never does. -/
  | refused (r : Refusal)
  deriving DecidableEq, Repr

/-- The next line acknowledges a fault of `dest`: it is `EXPECT dest.STATUS = …` (30_encoding.md R91). -/
def acknowledges (dest : Name) : List Line → Bool
  | .expect n .status _ :: _ => n == dest
  | _ => false

/-- A script performed line by line, one transaction per operation line (30_encoding.md R90, R91): how it ends, the names
bound, and the unit afterwards. -/
def runScript : List Line → Env → State → ScriptEnd × Env × State
  | [], env, s => (.finished, env, s)
  | .letBind n e :: rest, env, s =>
    match evalExpr env e with
    | some v => runScript rest ((n, .value v) :: env) s
    | none => (.badLine, env, s)
  | .expect n f v :: rest, env, s =>
    match evalSource env (.field n f), evalSource env v with
    | some x, some y => if x.bits.toNat = y.bits.toNat then runScript rest env s else (.unexpected n f, env, s)
    | _, _ => (.badLine, env, s)
  | l :: rest, env, s =>
    match assemble env l with
    | none => (.badLine, env, s)
    | some (dest, q) =>
      match step (s.present { req := q, tp := s.inp.tp }) with
      | .next t =>
        if t.rsp.status = .ok ∨ acknowledges dest rest then runScript rest ((dest, .response t.rsp) :: env) t
        else (.faulted dest, (dest, .response t.rsp) :: env, t)
      | .refused r => (.refused r, env, s)

end Sys2Proof.Machine
end

