-- ==== Sys2Proof/Machine/ScriptText.lean ====
section
/-! DEFINITION. The text of a script line (30_encoding.md R90, R91): words, punctuation, a comment from a semicolon on. What the
rules leave open of the syntax is log entry 15. -/

namespace Sys2Proof.Machine

/-- A token: a run of letters, digits and underscores, or one other character. -/
inductive Token where
  | word (cs : List Char)
  | sym (c : Char)
  deriving DecidableEq, Repr

/-- A character of a word. -/
def isWordChar (c : Char) : Bool := c.isAlphanum || c == '_'

/-- The word read so far, which is kept in reverse. -/
def flush (acc : List Char) : List Token := if acc.isEmpty then [] else [.word acc.reverse]

/-- The tokens of a line, up to the comment. -/
def tokenize : List Char → List Char → List Token
  | [], acc => flush acc
  | c :: cs, acc =>
    if c == ';' then flush acc
    else if isWordChar c then tokenize cs (c :: acc)
    else if c.isWhitespace then flush acc ++ tokenize cs []
    else flush acc ++ .sym c :: tokenize cs []

/-- The sixteen digits in the order of their values. -/
def digitChars : List Char := "0123456789ABCDEF".toList

/-- The number written by digits of base `b`, most significant first, after the number `n` read so far: a digit's value is
its place among the first `b`. A letter may be small, which the spec never writes (log entry 15). -/
def digits (b : Nat) : List Char → Nat → Option Nat
  | [], n => some n
  | c :: cs, n => ((digitChars.take b).idxOf? c.toUpper).bind fun d => digits b cs (n * b + d)

/-- A literal: `0x` and 16 or 8 digits (00_scope.md R10, 30_encoding.md R90), or a decimal number, as programs P3 and P4
write the codes of a field and of `RAW`; that its value is 64 bits wide is log entry 15. DESIGN CHOICE
(log entry 15): a decimal number of 2^64 or more is no literal, so its line cannot be read. -/
def literal : List Char → Option Val
  | '0' :: 'x' :: ds =>
    if ds.length = 16 then (digits 16 ds 0).map fun n => ⟨64, BitVec.ofNat 64 n⟩
    else if ds.length = 8 then (digits 16 ds 0).map fun n => ⟨32, BitVec.ofNat 32 n⟩
    else none
  | [] => none
  | ds => (digits 10 ds 0).bind fun n => if n < 2 ^ 64 then some ⟨64, BitVec.ofNat 64 n⟩ else none

/-- A decimal number, of any size, as the bound of a slice. -/
def decimal : List Char → Option Nat
  | [] => none
  | ds => digits 10 ds 0

/-- The names of the response fields (30_encoding.md R81). -/
def fieldOf (cs : List Char) : Option Field :=
  if cs = ['S', 'T', 'A', 'T', 'U', 'S'] then some .status
  else if cs = ['E', 'I', 'N', 'F', 'O'] then some .einfo
  else if cs = ['Y'] then some .y
  else if cs = ['H', 'I'] then some .hi
  else if cs = ['L', 'O'] then some .lo
  else if cs = ['C', 'L', 'S'] then some .cls
  else if cs = ['S', 'E', 'L'] then some .sel
  else if cs = ['P', 'R', 'I', 'M'] then some .prim
  else if cs = ['R'] then some .r
  else if cs = ['T'] then some .t
  else none

/-- A word on its own as a source: a literal if it begins with a digit, else a name bound by `LET`. DESIGN CHOICE (log entry
15): every literal is read at every place of a source, so also a decimal number as the source of an operation line
(`SINPI d, 5` is `SINPI` of the pattern 5), where 30_encoding.md R90 gives `name.FIELD` or a hexadecimal literal only. -/
def wordSource (w : List Char) : Option Source :=
  match w with
  | c :: _ => if c.isDigit then (literal w).map .lit else some (.name w)
  | [] => none

/-- A source at the head of the tokens. -/
def parseSource : List Token → Option (Source × List Token)
  | .word n :: .sym '.' :: .word f :: ts => (fieldOf f).map fun g => (.field n g, ts)
  | .word w :: ts => (wordSource w).map fun s => (s, ts)
  | _ => none

/-- The one-argument functions a `LET` may use (30_encoding.md R91). -/
def functionOf (cs : List Char) : Option (Expr → Expr) :=
  if cs = ['m', 'u', 'l', 'P', 'i'] then some .mulPi
  else if cs = ['S', 'I', 'N', '6', '4'] then some .sin64
  else if cs = ['C', 'O', 'S', '6', '4'] then some .cos64
  else if cs = ['f', 'n', 'e', 'g'] then some .fneg
  else none

/-- The braces of a concatenation (00_scope.md R10). -/
def openBrace : Char := Char.ofNat 123
def closeBrace : Char := Char.ofNat 125

/-- An expression without a postfix slice, then the slice `[hi:lo]` or `[i]` if one follows (00_scope.md R10). -/
def withSlice (e : Expr) : List Token → Option (Expr × List Token)
  | .sym '[' :: .word h :: .sym ':' :: .word l :: .sym ']' :: ts => do
    return (.slice e (← decimal h) (← decimal l), ts)
  | .sym '[' :: .word i :: .sym ']' :: ts => do
    let k ← decimal i
    return (.slice e k k, ts)
  | ts => some (e, ts)

mutual

/-- An operand of an operator: a negation, a bracketed expression, a concatenation, a function call or a source. -/
def parseAtom : Nat → List Token → Option (Expr × List Token)
  | 0, _ => none
  | n + 1, ts =>
    match ts with
    | .sym c :: ts =>
      if c == '~' then do
        let (e, ts) ← parseAtom n ts
        return (.not e, ts)
      else if c == '(' then do
        let (e, ts) ← parseExpr n ts
        match ts with
        | .sym ')' :: ts => withSlice e ts
        | _ => none
      else if c == openBrace then do
        let (a, ts) ← parseExpr n ts
        match ts with
        | .sym ',' :: ts =>
          let (b, ts) ← parseExpr n ts
          match ts with
          | .sym d :: ts => if d == closeBrace then withSlice (.cat a b) ts else none
          | _ => none
        | _ => none
      else none
    | .word w :: .sym '(' :: ts => do
      let f ← functionOf w
      let (e, ts) ← parseExpr n ts
      match ts with
      | .sym ')' :: ts => withSlice (f e) ts
      | _ => none
    | ts => do
      let (s, ts) ← parseSource ts
      withSlice (.src s) ts

/-- An operand, or two operands with `&` or `|` between them; longer expressions are bracketed. -/
def parseExpr : Nat → List Token → Option (Expr × List Token)
  | 0, _ => none
  | n + 1, ts => do
    let (a, ts) ← parseAtom n ts
    match ts with
    | .sym '&' :: ts =>
      let (b, ts) ← parseAtom n ts
      return (.and a b, ts)
    | .sym '|' :: ts =>
      let (b, ts) ← parseAtom n ts
      return (.or a b, ts)
    | ts => return (a, ts)

end

/-- The sources after the destination, separated by commas, to the end of the line. -/
def parseSources : Nat → List Token → Option (List Source)
  | _, [] => some []
  | 0, _ => none
  | n + 1, .sym ',' :: ts => do
    let (s, ts) ← parseSource ts
    return s :: (← parseSources n ts)
  | _, _ => none

/-- An operation line: mnemonic, destination, and the sources in DOC0's argument order (30_encoding.md R90); or a `RAW` line
(R91). DESIGN CHOICE (log entry 15): a `RAW` code above 7 does not fit `OP` and its line cannot be read. -/
def operationLine (m d : List Char) (srcs : List Source) : Option Line :=
  match srcs with
  | [x] =>
    if m = ['D', 'E', 'C', 'O', 'M', 'P'] then some (.decomp d x)
    else if m = ['H', 'I', 'W', 'O', 'R', 'D'] then some (.hiword d x)
    else if m = ['R', 'R', 'D'] then some (.rrd d x)
    else if m = ['S', 'I', 'N', 'P', 'I'] then some (.sinpi d x)
    else none
  | [x, y] =>
    if m = ['C', 'O', 'M', 'P', 'O', 'S', 'E'] then some (.compose d x y)
    else if m = ['C', 'P', 'Y', 'S', 'G', 'N'] then some (.cpysgn d x y)
    else none
  | [.lit op, .lit a, .lit b] =>
    if m = ['R', 'A', 'W'] ∧ op.bits.toNat < 8 then
      some (.raw d (op.bits.setWidth 3) (a.bits.setWidth 64) (b.bits.setWidth 64))
    else none
  | _ => none

/-- A line of a script as its tokens. -/
def parseTokens : List Token → Option Line
  | .word m :: .word d :: ts =>
    if m = ['L', 'E', 'T'] then
      match ts with
      | .sym '=' :: ts => match parseExpr (2 * ts.length + 2) ts with
        | some (e, []) => some (.letBind d e)
        | _ => none
      | _ => none
    else if m = ['E', 'X', 'P', 'E', 'C', 'T'] then
      match ts with
      | .sym '.' :: .word f :: .sym '=' :: ts => match fieldOf f, parseSource ts with
        | some g, some (v, []) => some (.expect d g v)
        | _, _ => none
      | _ => none
    else (parseSources ts.length ts).bind (operationLine m d)
  | _ => none

/-- The lines of a script from its text, blank and comment lines left out; none where a line cannot be read. -/
def parseScript : List (List Char) → Option (List Line)
  | [] => some []
  | l :: ls =>
    match tokenize l [] with
    | [] => parseScript ls
    | ts => do
      let line ← parseTokens ts
      return line :: (← parseScript ls)

end Sys2Proof.Machine
end

