-- ==== Sys2Proof/Safety.lean ====
section
/-! DEFINITION. What the unit is, seen from its ports: a function of the request and of `TP` alone (10_state.md R40, R42, R55;
70_reset_and_hazards.md R185), with no scratch buffer and no byte order in it; and the invariant of the machine. -/

namespace Sys2Proof.Machine

/-- The trig request a finite operand gives rise to, if any (42_range_reduction.md R131, R134). -/
def trigRequestOf (x : F64) : TrigOut :=
  let r := fmod2 x
  let sel := caseOf (fabs r)
  if sel = .case0 then TrigOut.idle
  else { treq := true, tprim := primOf sel, tu := mulPi (trigArg sel r (fabs r)) }

/-- The trig outputs as a function of the request ports (30_encoding.md R82; 10_state.md, table of R52). -/
def unitTrig (q : Request) : TrigOut :=
  if q.op = 5 ∧ isFinite q.a then trigRequestOf q.a else TrigOut.idle

/-- The response as a function of the request ports and of the value on `TP` (10_state.md R42), slices written out. -/
def unitResponse (q : Request) (tp : F64) : Response :=
  match q.op.toNat with
  | 0 => { Response.zero with hi := q.a.extractLsb' 32 32, lo := q.a.extractLsb' 0 32 }
  | 1 => { Response.zero with y := q.a.extractLsb' 0 32 ++ q.b.extractLsb' 0 32 }
  | 2 => { Response.zero with hi := q.a.extractLsb' 32 32 }
  | 3 => { Response.zero with y := q.b.extractLsb' 63 1 ++ q.a.extractLsb' 0 63 }
  | 4 =>
    if isNaN q.a then { Response.zero with cls := .nan }
    else if isInf q.a then { Response.zero with status := .invalidArg, einfo := q.a }
    else
      let r := fmod2 q.a
      let sel := caseOf (fabs r)
      { Response.zero with r := r, sel := sel, prim := primOf sel, t := trigArg sel r (fabs r) }
  | 5 =>
    if isNaN q.a then { Response.zero with y := nanOut }
    else if isInf q.a then { Response.zero with status := .invalidArg, einfo := q.a }
    else { Response.zero with y := fixup (caseOf (fabs (fmod2 q.a))) (fmod2 q.a) tp }
  | _ => { Response.zero with status := .illegalOp, einfo := q.op.setWidth 64 }

/-- The output ports are the function of the input ports the spec says they are at all times (table of R52). -/
abbrev PortsCombinational (s : State) : Prop :=
  s.rsp = unitResponse s.inp.req s.inp.tp ∧ s.trig = unitTrig s.inp.req

/-- The trig unit's contract: while a request stands on the trig port of an attached trig unit, `TP` is its answer
(30_encoding.md R82; 70_reset_and_hazards.md R185). -/
def TrigContract (s : State) : Prop :=
  s.cfg.trigAttached = true → s.trig.treq = true → s.inp.tp = trigAnswer s.cfg s.trig.tprim s.trig.tu s.inp.tp

/-- The byte of a 64-bit pattern at offset `a` of the buffer (20_memory.md R61): `x[8a+7:8a]` or `x[63-8a:56-8a]`. -/
def byteOf (e : Config.Endian) (x : F64) (a : Nat) : Byte :=
  match e with
  | .little => x.extractLsb' (8 * a) 8
  | .big => x.extractLsb' (56 - 8 * a) 8

/-- The machine's invariant: every step makes and keeps it. -/
structure Inv (s : State) : Prop where
  ports : PortsCombinational s
  contract : TrigContract s
  scratch : Memory.wf s.scr = true

/-! ## The named assumptions on the trig unit (93_implementation_defined.md, Part 2)

None is a rule of the unit; a claim that needs one takes it as a hypothesis. `TRIG_TOTAL` holds by the types of
`Config.sin64` and `Config.cos64`. -/

/-- `Urange`: the finite patterns of magnitude at most that of `0x3FE921FB54442D18`. -/
def Urange (u : F64) : Prop := isFinite u = true ∧ |val u| ≤ val 0x3FE921FB54442D18#64

/-- `TRIG_RANGE`. -/
def TrigRange : Prop :=
  ∀ u, Urange u → (isFinite (Config.sin64 u) = true ∧ |val (Config.sin64 u)| ≤ 1) ∧
    isFinite (Config.cos64 u) = true ∧ |val (Config.cos64 u)| ≤ 1

/-- `TRIG_SIN_ODD`. -/
def TrigSinOdd : Prop := ∀ u, Urange u → Config.sin64 (fneg u) = fneg (Config.sin64 u)

/-- `TRIG_COS_ZERO`. -/
def TrigCosZero : Prop := Config.cos64 0x0000000000000000#64 = 0x3FF0000000000000#64

/-- `TRIG_COS_POS`. -/
def TrigCosPos : Prop := ∀ u, Urange u → signOf (Config.cos64 u) = 0

/-- `TRIG_ACCURATE`, for a bound `ε` on the absolute error. -/
def TrigAccurate (ε : ℝ) : Prop :=
  ∀ u, Urange u → |(val (Config.sin64 u) : ℝ) - Real.sin (val u : ℝ)| ≤ ε ∧
    |(val (Config.cos64 u) : ℝ) - Real.cos (val u : ℝ)| ≤ ε

end Sys2Proof.Machine
end

