-- ==== Sys2Proof/WellFormed.lean ====
section
/-! DEFINITION. Which requests select an operation and which are the canonical encoding of one (30_encoding.md R85, R87). -/

namespace Sys2Proof

/-- The request's operation code selects an operation: `OP` is 0 to 5 (30_encoding.md R87). The operands are never a
reason to reject a request. -/
def Request.legal (q : Request) : Bool := q.op.toNat ≤ 5

/-- Every bit the operation ignores is zero, as an assembler writes it (30_encoding.md R84, R85): `B` of the one-operand
operations, `A[63:32]` and `B[63:32]` of `COMPOSE`, nothing of `CPYSGN`. -/
def Request.ignoredBitsZero (q : Request) : Bool :=
  match q.op.toNat with
  | 0 | 2 | 4 | 5 => q.b == 0
  | 1 => q.a.extractLsb' 32 32 == 0 && q.b.extractLsb' 32 32 == 0
  | _ => true

/-- The canonical encoding of an operation (30_encoding.md R85). -/
def Request.canonical (q : Request) : Bool := q.legal && q.ignoredBitsZero

/-- A well-formed instruction. Every operand value of every operation is accepted (30_encoding.md R87), and each
constructor holds exactly the operand bits R84 gives it, so there is nothing left to refuse. -/
def Instr.wf : Instr → Bool
  | .decomp _ => true
  | .compose _ _ => true
  | .hiword _ => true
  | .cpysgn _ _ => true
  | .rrd _ => true
  | .sinpi _ => true

end Sys2Proof
end

