-- ==== Sys2Proof/Certificates/Slice0/Obligations.lean ====
section
/-! DEFINITION. The statements for the provers, in the order of OBLIGATIONS.json. -/

open Sys2Proof Sys2Proof.Machine

/-! ## Encoding -/

/-- Encoding an instruction and decoding the packed request gives it back with every operand bit, and the request is the
canonical one (30_encoding.md R80, R84, R85, R86). -/
def Obligations.DecodeOfEncodeReturnsTheInstruction : Prop :=
  ∀ i : Instr, i.wf = true →
    decodeBits (encodeBits i) = .instr i ∧ (Request.unpack (encodeBits i)).canonical = true

/-- The other direction: what a request decodes to encodes to the request with its ignored bits zero, and to the request
itself when those bits are zero already (30_encoding.md R84, R85). -/
def Obligations.EncodeOfDecodeIsTheCanonicalRequest : Prop :=
  ∀ (q : Request) (i : Instr), decode q = .instr i →
    (encode i).op = q.op ∧ (encode i).canonical = true ∧ decode (encode i) = .instr i ∧
      (q.canonical = true → encode i = q)

/-- Words written out in 95_test_vectors.md, one for each operation and both reserved codes. -/
def Obligations.WordsOfTheTestVectorsDecode : Prop :=
  decodeTableWord 136 0x0FFF123456789ABCD0000000000000000 = some (.decomp 0xFFF123456789ABCD#64) ∧
  decodeTableWord 136 0x100000000FFF12345000000006789ABCD = some (.compose 0xFFF12345#32 0x6789ABCD#32) ∧
  decodeTableWord 136 0x2BFF00000000000010000000000000000 = some (.hiword 0xBFF0000000000001#64) ∧
  decodeTableWord 136 0x33FD55555555555558000000000000000 =
    some (.cpysgn 0x3FD5555555555555#64 0x8000000000000000#64) ∧
  decodeTableWord 136 0x4BFEC0000000000000000000000000000 = some (.rrd 0xBFEC000000000000#64) ∧
  decodeTableWord 136 0x53FD55555555555550000000000000000 = some (.sinpi 0x3FD5555555555555#64) ∧
  decodeTableWord 136 0x600000000000000000000000000000000 = none ∧
  decodeTableWord 136 0x77FF00000000000007FF8000000000000 = none

/-- 30_encoding.md R86: the six rows in their order, each with `mask = 7 << 128` and `match = OP << 128`; a request is
decoded as a row's operation exactly when it matches the row, and is reserved exactly when its code is 6 or 7. -/
def Obligations.OpcodeMapDecidesTheOperation : Prop :=
  opcodeTable.map (fun row => row.mnemonic) = ["DECOMP", "COMPOSE", "HIWORD", "CPYSGN", "RRD", "SINPI"] ∧
  (∀ (k : Nat) (row : OpcodeRow), opcodeTable[k]? = some row →
    row.mask = 7#131 <<< 128 ∧ row.pattern = BitVec.ofNat 131 k <<< 128) ∧
  (∀ (w : BitVec 131) (row : OpcodeRow), row ∈ opcodeTable →
    (w &&& row.mask = row.pattern ↔ ∃ i, decodeBits w = .instr i ∧ mnemonicOf i = row.mnemonic)) ∧
  (∀ w : BitVec 131, (∃ op, decodeBits w = .reservedOp op) ↔
    w &&& 7#131 <<< 128 = 6#131 <<< 128 ∨ w &&& 7#131 <<< 128 = 7#131 <<< 128)

/-- 30_encoding.md R87: the codes 6 and 7, and no other request, raise `IllegalOp`, whatever the operands; an infinite
operand of `RRD` or `SINPI` is accepted and answered with `InvalidArgument`. -/
def Obligations.OnlyReservedCodesAreIllegal : Prop :=
  ∀ s : State, ∃ t, step s = .next t ∧
    (t.rsp.status = .illegalOp ↔ (fetch s).inp.req.op = 6 ∨ (fetch s).inp.req.op = 7) ∧
    ((∃ i, decode (fetch s).inp.req = .instr i) ↔ (fetch s).inp.req.op ≠ 6 ∧ (fetch s).inp.req.op ≠ 7) ∧
    ((fetch s).inp.req.op = 4 ∨ (fetch s).inp.req.op = 5 → isInf (fetch s).inp.req.a = true →
      t.rsp.status = .invalidArg)

/-- 30_encoding.md R85: two requests with the same code that agree on the bits the operation takes get the same answer on
every output port, whatever stands in the bits it ignores (`CPYSGN` takes only bit 63 of `B`), and an ignored bit is no
error; an assembler writes ignored bits as zero. -/
def Obligations.IgnoredBitsHaveNoEffect : Prop :=
  (∀ (s : State) (q q' : Request) (tp : F64), q.op = q'.op →
    (q.op = 0 ∨ q.op = 2 ∨ q.op = 4 ∨ q.op = 5 → q.a = q'.a) →
    (q.op = 1 → q.a.extractLsb' 0 32 = q'.a.extractLsb' 0 32 ∧ q.b.extractLsb' 0 32 = q'.b.extractLsb' 0 32) →
    (q.op = 3 → q.a = q'.a ∧ q.b.extractLsb' 63 1 = q'.b.extractLsb' 63 1) →
    ∃ t t', step (s.present { req := q, tp := tp }) = .next t ∧ step (s.present { req := q', tp := tp }) = .next t' ∧
      t.rsp = t'.rsp ∧ t.trig = t'.trig ∧ t.inp.tp = t'.inp.tp) ∧
  (∀ i : Instr, (encode i).ignoredBitsZero = true)

/-! ## The step -/

/-- A step takes the next pending inputs, if there are any, onto the input ports, and performs the operation the request
there decodes to: `step` is `exec` of it (log entry 1). -/
def Obligations.StepPerformsTheDecodedRequest : Prop :=
  (∀ (s : State) (i : Instr), decode (fetch s).inp.req = .instr i → step s = exec i (fetch s)) ∧
  (∀ s : State, s.pending = [] → fetch s = s) ∧
  (∀ (s : State) (p : Inputs) (rest : List Inputs), s.pending = p :: rest →
    fetch s = { s with inp := p, pending := rest })

/-- A request word placed with `withFetchWord` is the one the next step performs, whatever stood on the ports or was
pending (log entry 1: a program is presented from outside). -/
def Obligations.APlacedWordIsPerformedNext : Prop :=
  ∀ (s : State) (w : Nat) (i : Instr), decodeTableWord 136 w = some i →
    step (s.withFetchWord 136 w) = exec i (s.withFetchWord 136 w) ∧ (s.withFetchWord 136 w).scr = s.scr ∧
    (s.withFetchWord 136 w).cfg = s.cfg ∧ (s.withFetchWord 136 w).inp.tp = s.inp.tp

/-- Every transaction ends with one response: a step always answers a next state (70_reset_and_hazards.md R188, given
log entry 6). -/
def Obligations.StepAlwaysAnswersANextState : Prop := ∀ s : State, ∃ t, step s = .next t

/-- After a step the response ports are the function of the request and of `TP`, and the trig outputs the function of the
request, that `Safety.lean` writes with no buffer and no byte order: the machine with the scratch buffer is the stateless
unit (10_state.md R40, R42, R51, R55; log entry 1 for `fetch`). -/
def Obligations.StepRefinesTheStatelessUnit : Prop :=
  ∀ s t : State, step s = .next t →
    t.inp.req = (fetch s).inp.req ∧ t.rsp = unitResponse t.inp.req t.inp.tp ∧ t.trig = unitTrig t.inp.req

/-- Every step keeps the machine's invariant: combinational ports, the trig unit's contract, and a scratch buffer in
canonical form inside offsets 0 to 7. -/
def Obligations.StepKeepsTheInvariant : Prop := ∀ s t : State, Inv s → step s = .next t → Inv t

/-- The invariant holds after reset. The reset values of the input ports, of the buffer and of the parameters are the
model's choices (log entries 2 to 5). -/
def Obligations.ResetMeetsTheInvariant : Prop := Inv State.reset

/-- 10_state.md R40: nothing kept from earlier transactions can change a response. Two machines in any two states (any
buffer, byte order, outputs left over), alike only in whether a trig unit is attached, answer the same inputs alike. -/
def Obligations.NoResponseDependsOnAnEarlierTransaction : Prop :=
  ∀ (s s' : State) (i : Inputs), s.cfg.trigAttached = s'.cfg.trigAttached →
    ∃ t t', step (s.present i) = .next t ∧ step (s'.present i) = .next t' ∧
      t.rsp = t'.rsp ∧ t.trig = t'.trig ∧ t.inp = t'.inp

/-- However many transactions have run before, a request is answered as if they had not (20_memory.md R69;
60_exceptions.md R166: faults are not sticky). -/
def Obligations.EarlierTransactionsChangeNoResponse : Prop :=
  ∀ (k : Nat) (s t : State) (i : Inputs), Sys2Proof.core.run k s = .next t →
    ∃ u v, step (t.present i) = .next u ∧ step (s.present i) = .next v ∧
      u.rsp = v.rsp ∧ u.trig = v.trig ∧ u.inp = v.inp

/-- No step changes a parameter: byte order cannot be switched (20_memory.md R64; 10_state.md R47). -/
def Obligations.ParametersNeverChange : Prop := ∀ s t : State, step s = .next t → t.cfg = s.cfg

/-- The frame of every instruction: parameters, the inputs still pending and the request ports are unchanged; `TP` changes
only in a transaction with a trig request; `RRD`, `SINPI` leave the buffer alone (log entry 10), and the others change it
only when there is one. -/
def Obligations.InstructionFrame : Prop :=
  ∀ (i : Instr) (s t : State), exec i s = .next t →
    t.cfg = s.cfg ∧ t.pending = s.pending ∧ t.inp.req = s.inp.req ∧
    (t.trig.treq = false → t.inp.tp = s.inp.tp) ∧
    (s.cfg.hasScratch = false → t.scr = s.scr) ∧
    (mnemonicOf i = "RRD" ∨ mnemonicOf i = "SINPI" → t.scr = s.scr)

/-! ## The scratch buffer -/

/-- 20_memory.md R61: the bytes each store puts at each offset, in both byte orders, every other offset unchanged; the
4-byte load is the bytes joined in that order, and each load is the inverse of its store. -/
def Obligations.ScratchLayoutFollowsHostEndian : Prop :=
  (∀ (e : Config.Endian) (m : Memory) (x : F64) (a : Nat),
    (memWrite64 e m x).read a = if a < 8 then byteOf e x a else m.read a) ∧
  (∀ (e : Config.Endian) (m : Memory) (x : F64), memRead64 e (memWrite64 e m x) = x) ∧
  (∀ (e : Config.Endian) (m : Memory) (a : Nat), (memWrite64 e m (memRead64 e m)).read a = m.read a) ∧
  (∀ (m : Memory) (j : Nat), memRead32 .little m j =
    m.read (4 * j + 3) ++ m.read (4 * j + 2) ++ m.read (4 * j + 1) ++ m.read (4 * j)) ∧
  (∀ (m : Memory) (j : Nat), memRead32 .big m j =
    m.read (4 * j) ++ m.read (4 * j + 1) ++ m.read (4 * j + 2) ++ m.read (4 * j + 3)) ∧
  (∀ (e : Config.Endian) (m : Memory) (j : Nat) (w : U32), memRead32 e (memWrite32 e m j w) j = w) ∧
  (∀ (e : Config.Endian) (m : Memory) (j : Nat) (w : U32) (a : Nat), a < 4 * j ∨ 4 * j + 4 ≤ a →
    (memWrite32 e m j w).read a = m.read a) ∧
  (∀ (e : Config.Endian) (m : Memory) (j a : Nat), (memWrite32 e m j (memRead32 e m j)).read a = m.read a)

/-- What stands in `SCR` after each operation (20_memory.md R61, R74): with a buffer, the bytes at offsets 0 to 7 of the
pattern the operation stored last, and with none, or at any other offset, what stood there before. -/
def Obligations.ScratchHoldsTheLastStoredPattern : Prop :=
  ∀ (i : Instr) (s t : State), exec i s = .next t → ∀ a : Nat,
    t.scr.read a =
      if s.cfg.hasScratch = true ∧ a < 8 then
        match i with
        | .decomp x => byteOf s.cfg.hostEndian x a
        | .compose high low => byteOf s.cfg.hostEndian (high ++ low) a
        | .hiword x => byteOf s.cfg.hostEndian x a
        | .cpysgn mag sgn => byteOf s.cfg.hostEndian (sgn.extractLsb' 63 1 ++ mag.extractLsb' 0 63 : BitVec 64) a
        | .rrd _ => s.scr.read a
        | .sinpi _ => s.scr.read a
      else s.scr.read a

/-! ## Word operations -/

/-- Code 0 is `DECOMP` of `A`, and its whole next state for every operand, parameter and buffer. The ports are
40_word_ops.md R101, the buffer 20_memory.md R61 and R74; that `TP` keeps its value is the model's choice (log entry 7). -/
def Obligations.DecompAnswersBothWords : Prop :=
  (∀ a b : BitVec 64, decode { op := 0, a := a, b := b } = .instr (.decomp a)) ∧
  (∀ (x : F64) (s : State), exec (.decomp x) s = .next
    { s with
      rsp := { Response.zero with hi := x.extractLsb' 32 32, lo := x.extractLsb' 0 32 }
      trig := TrigOut.idle
      scr := if s.cfg.hasScratch then memWrite64 s.cfg.hostEndian s.scr x else s.scr })

/-- Code 1 is `COMPOSE` of the low words of `A` and `B`, whatever their high words, and its whole next state. The ports are
40_word_ops.md R103, the buffer 20_memory.md R74; that `TP` keeps its value is the model's choice (log entry 7). -/
def Obligations.ComposeAnswersThePattern : Prop :=
  (∀ (a b : BitVec 64),
    decode { op := 1, a := a, b := b } = .instr (.compose (a.extractLsb' 0 32) (b.extractLsb' 0 32))) ∧
  (∀ (high low : U32) (s : State), exec (.compose high low) s = .next
    { s with
      rsp := { Response.zero with y := high ++ low }
      trig := TrigOut.idle
      scr := (scrFromWords s.cfg s.scr high low).2 })

/-- Code 2 is `HIWORD` of `A`, and its whole next state; `LO` is zero whatever the operand. The ports are 40_word_ops.md
R105, the buffer 20_memory.md R61 and R74; that `TP` keeps its value is the model's choice (log entry 7). -/
def Obligations.HiwordAnswersTheHighWord : Prop :=
  (∀ a b : BitVec 64, decode { op := 2, a := a, b := b } = .instr (.hiword a)) ∧
  (∀ (x : F64) (s : State), exec (.hiword x) s = .next
    { s with
      rsp := { Response.zero with hi := x.extractLsb' 32 32 }
      trig := TrigOut.idle
      scr := if s.cfg.hasScratch then memWrite64 s.cfg.hostEndian s.scr x else s.scr })

/-- `COMPOSE` of the words of a `DECOMP` gives the pattern back, and `DECOMP` of a composed pattern gives the words back
(40_word_ops.md R106), through the machine, in every state. -/
def Obligations.DecompAndComposeAreInverse : Prop :=
  (∀ (x : F64) (s : State), ∃ t u, exec (.decomp x) s = .next t ∧
    exec (.compose t.rsp.hi t.rsp.lo) t = .next u ∧ u.rsp.y = x) ∧
  (∀ (high low : U32) (s : State), ∃ t u, exec (.compose high low) s = .next t ∧
    exec (.decomp t.rsp.y) t = .next u ∧ u.rsp.hi = high ∧ u.rsp.lo = low)

/-- The `HI` of `HIWORD` is the `HI` of `DECOMP` (40_word_ops.md R107). -/
def Obligations.HiwordAgreesWithDecomp : Prop :=
  ∀ (x : F64) (s : State), ∃ t u, exec (.decomp x) s = .next t ∧ exec (.hiword x) s = .next u ∧ t.rsp.hi = u.rsp.hi

/-- Where the fields of a pattern stand in its words, and the class read off the words (40_word_ops.md R108). -/
def Obligations.FieldsAndClassFromTheWords : Prop :=
  ∀ x : F64,
    signOf x = (words x).1.extractLsb' 31 1 ∧ expo x = (words x).1.extractLsb' 20 11 ∧
    frac x = ((words x).1.extractLsb' 0 20 ++ (words x).2 : BitVec 52) ∧
    isNaN x = isNaNWords (words x).1 (words x).2 ∧ isInf x = isInfWords (words x).1 (words x).2 ∧
    isFinite x = isFiniteWords (words x).1

/-! ## The sign copier -/

/-- Code 3 is `CPYSGN` of `A` and `B`, and its whole next state: `Y` is the sign of `B` on the other 63 bits of `A`, whatever
the patterns. The ports are 41_copysign.md R111, the buffer 20_memory.md R74; that `TP` keeps its value is the model's choice
(log entry 7). -/
def Obligations.CpysgnAnswersSignOnMagnitude : Prop :=
  (∀ a b : BitVec 64, decode { op := 3, a := a, b := b } = .instr (.cpysgn a b)) ∧
  (∀ (mag sgn : F64) (s : State), exec (.cpysgn mag sgn) s = .next
    { s with
      rsp := { Response.zero with y := sgn.extractLsb' 63 1 ++ mag.extractLsb' 0 63 }
      trig := TrigOut.idle
      scr := (scrCopySign s.cfg s.scr mag sgn).2 })

/-- The laws of 41_copysign.md R113, bitwise and for all patterns. -/
def Obligations.CopySignLaws : Prop :=
  ∀ a b c : F64,
    signOf (copySign a b) = signOf b ∧ fabs (copySign a b) = fabs a ∧
    (b.extractLsb' 63 1 = c.extractLsb' 63 1 → copySign a b = copySign a c) ∧
    copySign (copySign a b) c = copySign a c ∧ copySign a (copySign b c) = copySign a c ∧
    fabs a = copySign a c0 ∧ fneg (copySign a b) = copySign a (fneg b) ∧
    (signOf a = signOf b → copySign a b = a) ∧ (signOf a ≠ signOf b → copySign a b = fneg a) ∧
    (copySign a b = a ↔ signOf a = signOf b) ∧
    isNaN (copySign a b) = isNaN a ∧ isInf (copySign a b) = isInf a ∧ isZero (copySign a b) = isZero a ∧
    isFinite (copySign a b) = isFinite a

/-- DOC0's two invariants as operations (41_copysign.md R112): `CPYSGN x, x` gives `x`, and `CPYSGN x, -1.0` gives
`{1, x[62:0]}`, for every pattern. -/
def Obligations.CpysgnInvariants : Prop :=
  ∀ (x : F64) (s : State),
    (∃ t, exec (.cpysgn x x) s = .next t ∧ t.rsp.y = x) ∧
    (∃ t, exec (.cpysgn x cMinus1) s = .next t ∧ t.rsp.y = 1#1 ++ x.extractLsb' 0 63)

/-- A requester with `DECOMP`, `HIWORD`, `COMPOSE` and its own 32-bit AND and OR obtains what `CPYSGN` answers
(41_copysign.md R115). -/
def Obligations.CpysgnFromWordOperations : Prop :=
  ∀ (mag sgn : F64) (s : State), ∃ t u v w,
    exec (.decomp mag) s = .next t ∧ exec (.hiword sgn) t = .next u ∧
    exec (.compose ((t.rsp.hi &&& maskMag) ||| (u.rsp.hi &&& maskSign)) t.rsp.lo) u = .next v ∧
    exec (.cpysgn mag sgn) s = .next w ∧ v.rsp.y = w.rsp.y

/-! ## The format -/

/-- Exactly one of NaN, infinite, finite holds of a pattern (00_scope.md R15; 42_range_reduction.md R120), and the two
infinities are the two patterns R15 names. -/
def Obligations.ClassesAreExclusive : Prop :=
  ∀ x : F64,
    (isNaN x || isInf x || isFinite x) = true ∧ (isNaN x && isInf x) = false ∧ (isNaN x && isFinite x) = false ∧
    (isInf x && isFinite x) = false ∧ (isInf x = true ↔ x = 0x7FF0000000000000#64 ∨ x = 0xFFF0000000000000#64)

/-- For non-negative finite patterns the order of the values is the order of the patterns (00_scope.md R17). -/
def Obligations.OrderOfValuesIsOrderOfPatterns : Prop :=
  ∀ a b : F64, isFinite a = true → isFinite b = true → signOf a = 0 → signOf b = 0 →
    (val a < val b ↔ magBits a < magBits b) ∧ (val a = val b ↔ a = b)

/-- 00_scope.md R21: `encx` answers the pattern of sign `s` and magnitude `N * 2^q` wherever there is one. -/
def Obligations.EncxAnswersTheExactPattern : Prop :=
  ∀ (s : BitVec 1) (n : Nat) (q : Int) (y : F64), isFinite y = true → signOf y = s →
    |val y| = (n : ℚ) * 2 ^ q → encx s n q = y

/-- The patterns of the constants have the values the names say (00_scope.md R18, R7). -/
def Obligations.ConstantsHaveTheirValues : Prop :=
  val c0 = 0 ∧ val c025 = 1 / 4 ∧ val c05 = 1 / 2 ∧ val c075 = 3 / 4 ∧ val c1 = 1 ∧ val c125 = 5 / 4 ∧
  val c15 = 3 / 2 ∧ val c175 = 7 / 4 ∧ val c2 = 2 ∧ val cMinus1 = -1 ∧
  val pi64 = (piSig : ℚ) * 2 ^ (-51 : ℤ) ∧ isNaN nanOut = true

/-! ## Reduction and dispatch -/

/-- 42_range_reduction.md R123: `fmod2` is the exact sign-preserving remainder by 2 of every finite pattern. -/
def Obligations.FmodIsTheExactRemainder : Prop :=
  ∀ x : F64, isFinite x = true →
    isFinite (fmod2 x) = true ∧ signOf (fmod2 x) = signOf x ∧
    |val (fmod2 x)| = |val x| - 2 * (⌊|val x| / 2⌋ : ℤ)

/-- 42_range_reduction.md R126: the case is the first row of DOC0's table, read from the top, whose numeric condition
`ar` satisfies, and `ar` is below 2. -/
def Obligations.CaseIsTheFirstMatchingRow : Prop :=
  ∀ x : F64, isFinite x = true →
    0 ≤ val (fabs (fmod2 x)) ∧ val (fabs (fmod2 x)) < 2 ∧
    caseOf (fabs (fmod2 x)) =
      if val (fabs (fmod2 x)) = 0 ∨ val (fabs (fmod2 x)) = 1 then .case0
      else if val (fabs (fmod2 x)) < 1 / 4 then .case1
      else if val (fabs (fmod2 x)) < 3 / 4 then .case2
      else if val (fabs (fmod2 x)) < 5 / 4 then .case3
      else if val (fabs (fmod2 x)) < 7 / 4 then .case4
      else .case5

/-- 42_range_reduction.md R127: the reduced argument is the exact difference of its row, never rounded, and `+0` when the
difference is zero. -/
def Obligations.TrigArgumentIsTheExactDifference : Prop :=
  ∀ x r ar t : F64, isFinite x = true → r = fmod2 x → ar = fabs r → t = trigArg (caseOf ar) r ar →
    isFinite t = true ∧ (isZero t = true → t = c0) ∧
    match caseOf ar with
    | .case0 => t = c0
    | .case1 => t = r
    | .case2 => val t = val c05 - val ar
    | .case3 => val t = val (copySign c1 r) - val r
    | .case4 => val t = val ar - val c15
    | .case5 => val t = val r - val (copySign c2 r)

/-- `|val(t)| <= 0.25` for every finite operand, and outside case 0 `t` is a zero only where `ar` is 0.5 or 1.5
(42_range_reduction.md R130 (a), (b)). -/
def Obligations.TrigArgumentIsAtMostAQuarter : Prop :=
  ∀ x r ar t : F64, isFinite x = true → r = fmod2 x → ar = fabs r → t = trigArg (caseOf ar) r ar →
    |val t| ≤ 1 / 4 ∧ (caseOf ar ≠ .case0 → (isZero t = true ↔ ar = c05 ∨ ar = c15))

/-- `mulPi` of an argument of magnitude at most a quarter, which is every argument the unit multiplies (R130), is a finite pattern of its sign, nearest to the exact product
among all finite patterns, with an even significand where another is as near (00_scope.md R22,
42_range_reduction.md R129). -/
def Obligations.MulPiIsTheNearestProduct : Prop :=
  ∀ t y : F64, isFinite t = true → |val t| ≤ 1 / 4 → isFinite y = true →
    isFinite (mulPi t) = true ∧ signOf (mulPi t) = signOf t ∧
    |val (mulPi t) - val pi64 * val t| ≤ |val y - val pi64 * val t| ∧
    (|val (mulPi t) - val pi64 * val t| = |val y - val pi64 * val t| →
      val y = val (mulPi t) ∨ (frac (mulPi t)).getLsbD 0 = false)

/-- A zero keeps its sign through `mulPi`, and a change of sign passes through it (42_range_reduction.md R129). -/
def Obligations.MulPiIsOdd : Prop :=
  ∀ t : F64, isFinite t = true →
    (isZero t = true → mulPi t = t) ∧ mulPi (fneg t) = fneg (mulPi t)

/-- What a finite operand sends to the trig unit is finite, a zero exactly when `t` is, and at most
`0x3FE921FB54442D18` in magnitude (42_range_reduction.md R130 (c)). -/
def Obligations.TrigRequestIsBounded : Prop :=
  ∀ x r ar u : F64, isFinite x = true → r = fmod2 x → ar = fabs r → u = mulPi (trigArg (caseOf ar) r ar) →
    isFinite u = true ∧ isZero u = isZero (trigArg (caseOf ar) r ar) ∧
    |val u| ≤ val 0x3FE921FB54442D18#64

/-- 42_range_reduction.md R132: what the fix-up does to the answer, bit by bit. -/
def Obligations.FixupSetsTheSign : Prop :=
  ∀ r p : F64,
    fixup .case0 r p = copySign c0 r ∧ fixup .case2 r p = copySign p r ∧
    fixup .case4 r p = fneg (copySign p r) ∧
    fixup .case0 r p = r.extractLsb' 63 1 ++ 0#63 ∧
    fixup .case1 r p = p ∧ fixup .case3 r p = p ∧ fixup .case5 r p = p ∧
    fixup .case2 r p = r.extractLsb' 63 1 ++ p.extractLsb' 0 63 ∧
    fixup .case4 r p = ~~~(r.extractLsb' 63 1) ++ p.extractLsb' 0 63 ∧
    fixup .case4 r p = copySign p (fneg r)

/-- Code 4 is `RRD` of `A`, and its whole next state for a NaN, an infinite and a finite operand. The ports are
42_range_reduction.md R133; that the buffer is left alone is inferred (log entry 10, DEDUCED), and that `TP` keeps its value
is the model's choice (log entry 7). -/
def Obligations.RrdClassifiesAndDispatches : Prop :=
  (∀ a b : BitVec 64, decode { op := 4, a := a, b := b } = .instr (.rrd a)) ∧
  ∀ (x : F64) (s : State),
    (isNaN x = true → exec (.rrd x) s = .next
      { s with rsp := { Response.zero with cls := .nan }, trig := TrigOut.idle }) ∧
    (isInf x = true → exec (.rrd x) s = .next
      { s with rsp := { Response.zero with status := .invalidArg, einfo := x }, trig := TrigOut.idle }) ∧
    (isFinite x = true → exec (.rrd x) s = .next
      { s with
        rsp := { Response.zero with
          cls := .finite, r := fmod2 x, sel := caseOf (fabs (fmod2 x)), prim := primOf (caseOf (fabs (fmod2 x))),
          t := trigArg (caseOf (fabs (fmod2 x))) (fmod2 x) (fabs (fmod2 x)) }
        trig := TrigOut.idle })

/-- Code 5 is `SINPI` of `A`, and its whole next state for a NaN, an infinite, an integer and any other operand; `p` is the
trig unit's answer, or the wire's own value where none is attached (70_reset_and_hazards.md R182). The ports are
42_range_reduction.md R134; that attachment is a parameter (log entry 5) and that `TP` keeps its value without a request
(log entry 7) are the model's choices, and that the buffer is left alone is inferred (log entry 10, DEDUCED). -/
def Obligations.SinpiAnswersThroughTheTrigPort : Prop :=
  (∀ a b : BitVec 64, decode { op := 5, a := a, b := b } = .instr (.sinpi a)) ∧
  ∀ (x : F64) (s : State),
    (isNaN x = true → exec (.sinpi x) s = .next
      { s with rsp := { Response.zero with y := 0x7FF8000000000000#64 }, trig := TrigOut.idle }) ∧
    (isInf x = true → exec (.sinpi x) s = .next
      { s with rsp := { Response.zero with status := .invalidArg, einfo := x }, trig := TrigOut.idle }) ∧
    (isFinite x = true → caseOf (fabs (fmod2 x)) = .case0 → exec (.sinpi x) s = .next
      { s with rsp := { Response.zero with y := copySign c0 (fmod2 x) }, trig := TrigOut.idle }) ∧
    (∀ (sel : Sel) (u p : F64), isFinite x = true → sel = caseOf (fabs (fmod2 x)) → sel ≠ .case0 →
      u = mulPi (trigArg sel (fmod2 x) (fabs (fmod2 x))) →
      p = (if s.cfg.trigAttached then (if primOf sel = .sin then Config.sin64 u else Config.cos64 u) else s.inp.tp) →
      exec (.sinpi x) s = .next
        { s with
          inp := { req := s.inp.req, tp := p }
          rsp := { Response.zero with y := fixup sel (fmod2 x) p }
          trig := { treq := true, tprim := primOf sel, tu := u } })

/-- DOC0's table row by row, for an attached trig unit: the `Y` of `SINPI` of a finite operand is the formula of its row
(42_range_reduction.md R138). -/
def Obligations.SinpiComputesTheRowsOfTheTable : Prop :=
  ∀ (x r ar : F64) (s : State), isFinite x = true → s.cfg.trigAttached = true → r = fmod2 x → ar = fabs r →
    ∃ t, exec (.sinpi x) s = .next t ∧ t.rsp.status = .ok ∧
      match caseOf ar with
      | .case0 => t.rsp.y = copySign c0 r
      | .case1 => t.rsp.y = Config.sin64 (mulPi r)
      | .case2 => t.rsp.y = copySign (Config.cos64 (mulPi (fsubx c05 ar))) r
      | .case3 => t.rsp.y = Config.sin64 (mulPi (fsubx (copySign c1 r) r))
      | .case4 => t.rsp.y = fneg (copySign (Config.cos64 (mulPi (fsubx ar c15))) r)
      | .case5 => t.rsp.y = Config.sin64 (mulPi (fsubx r (copySign c2 r)))

/-- The case is 0 exactly for an integer, every finite pattern with exponent field 1075 or more is one, and `SINPI` of an
integer is the zero of its sign with no trig request, whatever the trig unit (42_range_reduction.md R135). That the buffer
is left alone is inferred (log entry 10, DEDUCED); that `TP` keeps its value is the model's choice (log entry 7). -/
def Obligations.SinpiOfAnIntegerIsASignedZero : Prop :=
  ∀ x : F64, isFinite x = true →
    (caseOf (fabs (fmod2 x)) = .case0 ↔ ∃ n : ℤ, val x = n) ∧
    (1075 ≤ (expo x).toNat → ∃ n : ℤ, val x = n) ∧
    ((∃ n : ℤ, val x = n) → ∀ s : State, exec (.sinpi x) s = .next
      { s with rsp := { Response.zero with y := x.extractLsb' 63 1 ++ 0#63 }, trig := TrigOut.idle })

/-- The dispatcher is odd (42_range_reduction.md R136): case and primitive do not see the sign, the argument changes sign
in cases 1, 3, 5 and does not in cases 2, 4, and the answer of `SINPI` changes sign bit for bit in cases 0, 2, 4 and, in
cases 1, 3, 5, exactly when the sine does. -/
def Obligations.DispatcherIsOdd : Prop :=
  ∀ x r ar t u : F64, isFinite x = true → r = fmod2 x → ar = fabs r → t = trigArg (caseOf ar) r ar → u = mulPi t →
    fmod2 (fneg x) = fneg r ∧ fabs (fneg r) = ar ∧
    (caseOf ar = .case1 ∨ caseOf ar = .case3 ∨ caseOf ar = .case5 →
      trigArg (caseOf ar) (fneg r) ar = fneg t ∧ mulPi (fneg t) = fneg u ∧
      ∀ s : State, s.cfg.trigAttached = true → ∃ v w, exec (.sinpi x) s = .next v ∧ exec (.sinpi (fneg x)) s = .next w ∧
        (w.rsp.y = fneg v.rsp.y ↔ Config.sin64 (fneg u) = fneg (Config.sin64 u))) ∧
    (caseOf ar = .case2 ∨ caseOf ar = .case4 → trigArg (caseOf ar) (fneg r) ar = t) ∧
    (caseOf ar = .case0 ∨ caseOf ar = .case2 ∨ caseOf ar = .case4 →
      ∀ s : State, ∃ v w, exec (.sinpi x) s = .next v ∧ exec (.sinpi (fneg x)) s = .next w ∧ w.rsp.y = fneg v.rsp.y)

/-- Where two finite operands of the same sign differ by an even integer, they reduce to the same pattern, so `RRD` and
`SINPI` answer both alike on every output port (42_range_reduction.md R137 (b)). -/
def Obligations.SameSignPeriodIsBitExact : Prop :=
  ∀ (x x' : F64) (k : ℤ), isFinite x = true → isFinite x' = true → signOf x = signOf x' → val x' = val x + 2 * k →
    fmod2 x' = fmod2 x ∧
    ∀ s : State, exec (.rrd x') s = exec (.rrd x) s ∧ exec (.sinpi x') s = exec (.sinpi x) s

/-- If the value taken as the trig answer is finite and at most 1 in magnitude, so is the answer of `SINPI`, for every
finite operand (42_range_reduction.md R137 (a)). -/
def Obligations.SinpiIsInRangeWhenTheTrigAnswerIs : Prop :=
  ∀ (x : F64) (s t : State), isFinite x = true → exec (.sinpi x) s = .next t →
    (t.trig.treq = true → isFinite t.inp.tp = true ∧ |val t.inp.tp| ≤ 1) →
    t.rsp.status = .ok ∧ isFinite t.rsp.y = true ∧ |val t.rsp.y| ≤ 1

/-- 42_range_reduction.md R131: a transaction has a trig request exactly when it is a `SINPI` of a finite operand outside
case 0; then the port shows the primitive and `mulPi(t)` and `TP` is the attached trig unit's answer, which the response
takes unchecked; otherwise the port shows zeros and `TP` has no effect. -/
def Obligations.TrigRequestOnlyFromSinpi : Prop :=
  ∀ s t : State, step s = .next t →
    (t.trig.treq = true ↔ (fetch s).inp.req.op = 5 ∧ isFinite (fetch s).inp.req.a = true ∧
      caseOf (fabs (fmod2 (fetch s).inp.req.a)) ≠ .case0) ∧
    (t.trig.treq = true → ∀ (r : F64) (sel : Sel), r = fmod2 (fetch s).inp.req.a → sel = caseOf (fabs r) →
      t.trig.tprim = primOf sel ∧ t.trig.tu = mulPi (trigArg sel r (fabs r)) ∧
      (s.cfg.trigAttached = true → primOf sel = .sin → t.inp.tp = Config.sin64 t.trig.tu) ∧
      (s.cfg.trigAttached = true → primOf sel = .cos → t.inp.tp = Config.cos64 t.trig.tu) ∧
      t.rsp = { Response.zero with y := fixup sel r t.inp.tp }) ∧
    (t.trig.treq = false → t.trig = { treq := false, tprim := .none, tu := 0 } ∧
      ∀ tp : F64, ∃ t', step (s.present { (fetch s).inp with tp := tp }) = .next t' ∧ t'.rsp = t.rsp ∧ t'.trig = t.trig)

/-- With no trig unit attached the `Y` of a `SINPI` that makes a request is what the fix-up makes of the value on `TP`,
and every transaction without a trig request is answered as with one attached (70_reset_and_hazards.md R182 (b)). -/
def Obligations.WithoutATrigUnitTheWireIsTaken : Prop :=
  (∀ (x : F64) (s : State), isFinite x = true → s.cfg.trigAttached = false → caseOf (fabs (fmod2 x)) ≠ .case0 →
    ∃ t, exec (.sinpi x) s = .next t ∧ t.rsp.y = fixup (caseOf (fabs (fmod2 x))) (fmod2 x) s.inp.tp ∧ t.inp = s.inp) ∧
  (∀ (s s' t : State) (i : Inputs), step (s.present i) = .next t → t.trig.treq = false →
    ∃ t', step (s'.present i) = .next t' ∧ t'.rsp = t.rsp ∧ t'.trig = t.trig)

/-! ## Exceptions -/

/-- 60_exceptions.md R161: `InvalidArgument` is raised exactly by `RRD` or `SINPI` of one of the two infinities, and
`EINFO` is the operand. -/
def Obligations.InvalidArgumentExactlyForInfinities : Prop :=
  ∀ s t : State, step s = .next t →
    (t.rsp.status = .invalidArg ↔
      ((fetch s).inp.req.op = 4 ∨ (fetch s).inp.req.op = 5) ∧
      ((fetch s).inp.req.a = 0x7FF0000000000000#64 ∨ (fetch s).inp.req.a = 0xFFF0000000000000#64)) ∧
    (t.rsp.status = .invalidArg → t.rsp.einfo = (fetch s).inp.req.a) ∧
    Status.invalidArg.code = 1

/-- 60_exceptions.md R162: a NaN operand is no exception in any operation (the word operations and `CPYSGN` raise nothing at
all); `SINPI` answers `NAN_OUT` and `RRD` answers
`CLS = NAN` with everything else zero, for every NaN, quiet or signalling, of either sign. -/
def Obligations.NaNIsNoException : Prop :=
  ∀ s t : State, step s = .next t →
    ((fetch s).inp.req.op ≠ 6 → (fetch s).inp.req.op ≠ 7 → isNaN (fetch s).inp.req.a = true → t.rsp.status = .ok) ∧
    ((fetch s).inp.req.op = 0 ∨ (fetch s).inp.req.op = 1 ∨ (fetch s).inp.req.op = 2 ∨ (fetch s).inp.req.op = 3 →
      t.rsp.status = .ok) ∧
    ((fetch s).inp.req.op = 5 → isNaN (fetch s).inp.req.a = true →
      t.rsp = { Response.zero with y := 0x7FF8000000000000#64 } ∧ t.trig = TrigOut.idle) ∧
    ((fetch s).inp.req.op = 4 → isNaN (fetch s).inp.req.a = true →
      t.rsp = { Response.zero with cls := .nan } ∧ t.trig = TrigOut.idle)

/-- A reserved code raises `IllegalOp` whatever the operands: the whole next state (60_exceptions.md R160, R163, R166). -/
def Obligations.ReservedCodeRaisesIllegalOp : Prop :=
  ∀ s : State, (fetch s).inp.req.op = 6 ∨ (fetch s).inp.req.op = 7 → step s = .next
    { fetch s with
      rsp := { Response.zero with status := .illegalOp, einfo := (fetch s).inp.req.op.setWidth 64 }
      trig := TrigOut.idle }

/-- A transaction that faults has no effect but its fault response (60_exceptions.md R166): status and information, every
other field zero, no trig request, and the buffer, the parameters and the input ports as they were. -/
def Obligations.AFaultHasNoEffectButItsResponse : Prop :=
  ∀ s t : State, step s = .next t → t.rsp.status ≠ .ok →
    t = { fetch s with
      rsp := { Response.zero with status := t.rsp.status, einfo := t.rsp.einfo }
      trig := { treq := false, tprim := .none, tu := 0 } }

/-- Repeating the same request gives the same fault, and the machine stands where it stood (60_exceptions.md R168). The repeat
is a second step with nothing pending: that the ports then keep their values is the model's choice (log entry 1). -/
def Obligations.ARepeatedRequestFaultsAgain : Prop :=
  ∀ s t : State, step s = .next t → t.rsp.status ≠ .ok → t.pending = [] → step t = .next t

/-- 30_encoding.md R93: every field an operation does not assign is zero, on a fault all but `STATUS` and `EINFO`, and
`EINFO` is zero when `STATUS` is `OK`. -/
def Obligations.UnassignedFieldsAreZero : Prop :=
  ∀ s t : State, step s = .next t →
    (t.rsp.status = .ok → t.rsp.einfo = 0) ∧
    (t.rsp.status ≠ .ok → t.rsp = { Response.zero with status := t.rsp.status, einfo := t.rsp.einfo }) ∧
    ((fetch s).inp.req.op = 0 → t.rsp = { Response.zero with hi := t.rsp.hi, lo := t.rsp.lo }) ∧
    ((fetch s).inp.req.op = 1 → t.rsp = { Response.zero with y := t.rsp.y }) ∧
    ((fetch s).inp.req.op = 2 → t.rsp = { Response.zero with hi := t.rsp.hi }) ∧
    ((fetch s).inp.req.op = 3 → t.rsp = { Response.zero with y := t.rsp.y }) ∧
    ((fetch s).inp.req.op = 4 → t.rsp.status = .ok → t.rsp =
      { Response.zero with
        cls := t.rsp.cls, sel := t.rsp.sel, prim := t.rsp.prim, r := t.rsp.r, t := t.rsp.t }) ∧
    ((fetch s).inp.req.op = 5 → t.rsp.status = .ok → t.rsp = { Response.zero with y := t.rsp.y })

/-! ## Scripts -/

/-- The assembler writes the canonical request of every operation line: a legal code and every ignored bit zero; only
`RAW` can write another (30_encoding.md R90, R91). -/
def Obligations.AssemblerWritesCanonicalRequests : Prop :=
  ∀ (env : Env) (l : Line) (d : Name) (q : Request), assemble env l = some (d, q) →
    (∃ op a b, l = .raw d op a b ∧ q = { op := op, a := a, b := b }) ∨ q.canonical = true

/-- A script stops at the first response whose `STATUS` is not `OK` unless the next line acknowledges it, and goes on with
the response bound otherwise (30_encoding.md R90, R91). That an acknowledgement names the destination of the line before it,
and that a transaction of a script is presented with the value `TP` has, are the model's choices (log entry 15). -/
def Obligations.ScriptStopsAtAnUnacknowledgedFault : Prop :=
  ∀ (env : Env) (s : State) (l : Line) (rest : List Line) (d : Name) (q : Request),
    assemble env l = some (d, q) →
    ∃ t, step (s.present { req := q, tp := s.inp.tp }) = .next t ∧
      (t.rsp.status ≠ .ok → acknowledges d rest = false →
        runScript (l :: rest) env s = (.faulted d, (d, .response t.rsp) :: env, t)) ∧
      (t.rsp.status = .ok ∨ acknowledges d rest = true →
        runScript (l :: rest) env s = runScript rest ((d, .response t.rsp) :: env) t)
end

