-- ==== Sys2Proof/Laws/Float.lean ====
section
/-! SUPPORT. The small laws of the F64 format: fields of what is built, sign changes, bit length, value of a packed significand. -/

namespace Sys2Proof.Machine

/-! ## Fields -/

@[simp] theorem signOf_packF64 (s : BitVec 1) (e : BitVec 11) (f : BitVec 52) : signOf (packF64 s e f) = s := by
  apply BitVec.eq_of_getLsbD_eq
  intro i hi
  obtain rfl : i = 0 := by omega
  simp only [signOf, packF64, BitVec.getLsbD_extractLsb', BitVec.getLsbD_append]
  simp

@[simp] theorem expo_packF64 (s : BitVec 1) (e : BitVec 11) (f : BitVec 52) : expo (packF64 s e f) = e := by
  ext i hi
  simp only [expo, packF64, BitVec.getElem_extractLsb', BitVec.getLsbD_append]
  rw [if_neg (by omega), if_pos (by omega), Nat.add_sub_cancel_left, BitVec.getLsbD_eq_getElem hi]

@[simp] theorem frac_packF64 (s : BitVec 1) (e : BitVec 11) (f : BitVec 52) : frac (packF64 s e f) = f := by
  ext i hi
  simp only [frac, packF64, BitVec.getElem_extractLsb', BitVec.getLsbD_append, Nat.zero_add]
  rw [if_pos hi, BitVec.getLsbD_eq_getElem hi]

/-- A pattern is its three fields. -/
theorem packF64_fields (x : F64) : packF64 (signOf x) (expo x) (frac x) = x := by
  apply BitVec.eq_of_getLsbD_eq
  intro i hi
  simp only [packF64, signOf, expo, frac, BitVec.getLsbD_append, BitVec.getLsbD_extractLsb']
  split
  · simp [*]
  · split
    · have h : i - 52 < 11 := by omega
      simp only [h, decide_true, Bool.true_and]; congr 1; omega
    · have h : i - 52 - 11 < 1 := by omega
      simp only [h, decide_true, Bool.true_and]; congr 1; omega

/-- Patterns with equal fields are equal. -/
theorem f64_ext {x y : F64} (hs : signOf x = signOf y) (he : expo x = expo y) (hf : frac x = frac y) : x = y := by
  rw [← packF64_fields x, ← packF64_fields y, hs, he, hf]

@[simp] theorem signOf_zeroOf (s : BitVec 1) : signOf (zeroOf s) = s := signOf_packF64 _ _ _
@[simp] theorem expo_zeroOf (s : BitVec 1) : expo (zeroOf s) = 0 := expo_packF64 _ _ _
@[simp] theorem frac_zeroOf (s : BitVec 1) : frac (zeroOf s) = 0 := frac_packF64 _ _ _

/-! ## Sign changes -/

/-- The fields of a sign put above the 63 bits of a pattern. -/
theorem fields_of_append (s : BitVec 1) (x : F64) :
    signOf (s ++ magBits x : BitVec 64) = s ∧ expo (s ++ magBits x : BitVec 64) = expo x ∧
      frac (s ++ magBits x : BitVec 64) = frac x := by
  refine ⟨?_, ?_, ?_⟩
  · apply BitVec.eq_of_getLsbD_eq
    intro i hi
    obtain rfl : i = 0 := by omega
    simp only [signOf, BitVec.getLsbD_extractLsb', BitVec.getLsbD_append]
    simp
  · ext i hi
    simp only [expo, magBits, BitVec.getElem_extractLsb', BitVec.getLsbD_append]
    rw [if_pos (by omega)]
    simp only [BitVec.getLsbD_extractLsb', Nat.zero_add]
    simp [show 52 + i < 63 by omega]
  · ext i hi
    simp only [frac, magBits, BitVec.getElem_extractLsb', BitVec.getLsbD_append]
    rw [if_pos (by omega)]
    simp only [BitVec.getLsbD_extractLsb', Nat.zero_add]
    simp [show i < 63 by omega]

@[simp] theorem signOf_fabs (x : F64) : signOf (fabs x) = 0 := (fields_of_append 0#1 x).1
@[simp] theorem expo_fabs (x : F64) : expo (fabs x) = expo x := (fields_of_append 0#1 x).2.1
@[simp] theorem frac_fabs (x : F64) : frac (fabs x) = frac x := (fields_of_append 0#1 x).2.2
@[simp] theorem signOf_fneg (x : F64) : signOf (fneg x) = ~~~(signOf x) := (fields_of_append (~~~(signOf x)) x).1
@[simp] theorem expo_fneg (x : F64) : expo (fneg x) = expo x := (fields_of_append (~~~(signOf x)) x).2.1
@[simp] theorem frac_fneg (x : F64) : frac (fneg x) = frac x := (fields_of_append (~~~(signOf x)) x).2.2

@[simp] theorem sig_fabs (x : F64) : sig (fabs x) = sig x := by simp [sig]
@[simp] theorem sig_fneg (x : F64) : sig (fneg x) = sig x := by simp [sig]

@[simp] theorem isNaN_fneg (x : F64) : isNaN (fneg x) = isNaN x := by simp [isNaN]
@[simp] theorem isInf_fneg (x : F64) : isInf (fneg x) = isInf x := by simp [isInf]
@[simp] theorem isFinite_fneg (x : F64) : isFinite (fneg x) = isFinite x := by simp [isFinite]
@[simp] theorem isZero_fneg (x : F64) : isZero (fneg x) = isZero x := by simp [isZero]
@[simp] theorem isFinite_fabs (x : F64) : isFinite (fabs x) = isFinite x := by simp [isFinite]
@[simp] theorem isZero_fabs (x : F64) : isZero (fabs x) = isZero x := by simp [isZero]

/-! ## Values -/

theorem sig_lt (x : F64) : (sig x).1 < 2 ^ 53 := by
  have := (frac x).isLt
  unfold sig; split <;> dsimp only <;> omega

theorem le_sig_exp (x : F64) : -1074 ≤ (sig x).2 := by
  unfold sig; split <;> dsimp only <;> omega

/-- A sign bit is 0 or 1. -/
theorem signOf_cases (x : F64) : signOf x = 0 ∨ signOf x = 1 := by
  generalize signOf x = s
  revert s; decide

theorem val_of_sign_zero {x : F64} (h : signOf x = 0) : val x = (sig x).1 * 2 ^ (sig x).2 := by
  simp [val, h]

theorem val_of_sign_one {x : F64} (h : signOf x = 1) : val x = -((sig x).1 * 2 ^ (sig x).2) := by
  simp [val, h]

/-- The magnitude of a value (00_scope.md R16). -/
theorem abs_val (x : F64) : |val x| = (sig x).1 * 2 ^ (sig x).2 := by
  have h0 : (0 : ℚ) ≤ (sig x).1 * 2 ^ (sig x).2 := by positivity
  rcases signOf_cases x with h | h
  · rw [val_of_sign_zero h, abs_of_nonneg h0]
  · rw [val_of_sign_one h, abs_neg, abs_of_nonneg h0]

@[simp] theorem val_fabs (x : F64) : val (fabs x) = |val x| := by
  rw [abs_val, val_of_sign_zero (signOf_fabs x), sig_fabs]

@[simp] theorem val_fneg (x : F64) : val (fneg x) = -val x := by
  rcases signOf_cases x with h | h
  · rw [val_of_sign_zero h, val_of_sign_one (by simp [h]), sig_fneg]
  · rw [val_of_sign_one h, val_of_sign_zero (by simp [h]), sig_fneg, neg_neg]

/-! ## Bit length -/

theorem lt_two_pow_bitLen (n : Nat) : n < 2 ^ bitLen n := by
  unfold bitLen
  split
  · omega
  · exact Nat.lt_log2_self

theorem two_pow_bitLen_le {n : Nat} (h : n ≠ 0) : 2 ^ (bitLen n - 1) ≤ n := by
  rw [bitLen, if_neg h, Nat.add_sub_cancel]
  exact Nat.log2_self_le h

theorem bitLen_pos {n : Nat} (h : n ≠ 0) : 0 < bitLen n := by
  rw [bitLen, if_neg h]; omega

theorem bitLen_le {n k : Nat} (h : n < 2 ^ k) : bitLen n ≤ k := by
  by_cases hn : n = 0
  · simp [bitLen, hn]
  · have := Nat.pow_lt_pow_iff_right (a := 2) (by omega) |>.mp ((two_pow_bitLen_le hn).trans_lt h)
    omega

/-! ## Packed significands -/

@[simp] theorem signOf_packSig (s : BitVec 1) (m : Nat) (e : Int) : signOf (packSig s m e) = s := by
  unfold packSig; split <;> simp

/-- A significand below `2^53`, normalised unless its exponent is the least one, is what `packSig` holds. -/
theorem sig_packSig (s : BitVec 1) {m : Nat} {e : Int} (hm : m < 2 ^ 53) (he : -1074 ≤ e) (he' : e ≤ 971)
    (hn : m < 2 ^ 52 → e = -1074) : sig (packSig s m e) = (m, e) := by
  unfold packSig
  split
  · rename_i h52
    have hE : (BitVec.ofNat 11 (e + 1075).toNat).toNat = (e + 1075).toNat := by
      rw [BitVec.toNat_ofNat, Nat.mod_eq_of_lt (by omega)]
    have hF : (BitVec.ofNat 52 m).toNat = m - 2 ^ 52 := by
      rw [BitVec.toNat_ofNat]; omega
    simp only [sig, expo_packF64, frac_packF64, hE, hF]
    rw [if_neg (by omega)]
    ext
    · simp only; omega
    · simp only; omega
  · rename_i h52
    have hF : (BitVec.ofNat 52 m).toNat = m := by
      rw [BitVec.toNat_ofNat, Nat.mod_eq_of_lt (by omega)]
    simp [sig, hF, hn (by omega)]

theorem isFinite_packSig (s : BitVec 1) {m : Nat} {e : Int} (he : -1074 ≤ e) (he' : e ≤ 971) :
    isFinite (packSig s m e) = true := by
  unfold packSig
  split
  · have : BitVec.ofNat 11 (e + 1075).toNat ≠ 0x7FF#11 := by
      intro h
      have := congrArg BitVec.toNat h
      rw [BitVec.toNat_ofNat, Nat.mod_eq_of_lt (by omega)] at this
      simp at this
      omega
    simp [isFinite, this]
  · simp [isFinite]

end Sys2Proof.Machine
end

