-- ==== Sys2Proof/Laws/Memory.lean ====
section
/-! SUPPORT. The laws of byte storage: what a read answers after a write, and that every write keeps the canonical form. -/

namespace Sys2Proof.Machine.Memory

theorem read_erase (m : Memory) (a b : Nat) :
    Memory.read (Memory.erase m a) b = if b = a then Memory.unlisted else Memory.read m b := by
  induction m with
  | nil => simp [Memory.erase, Memory.read]
  | cons c m ih =>
    by_cases hc : c.1 = a
    · have : Memory.erase (c :: m) a = Memory.erase m a := by simp [Memory.erase, hc]
      rw [this, ih]
      by_cases hb : b = a
      · simp [hb]
      · simp only [if_neg hb, Memory.read, if_neg (fun h : c.1 = b => hb (h.symm.trans hc))]
    · have : Memory.erase (c :: m) a = c :: Memory.erase m a := by simp [Memory.erase, hc]
      rw [this]
      simp only [Memory.read, ih]
      by_cases hcb : c.1 = b
      · have hb : b ≠ a := fun h => hc (hcb.trans h)
        simp [hcb, hb]
      · simp [hcb]

theorem ne_of_mem_erase {m : Memory} {a : Nat} {c : Host.Cell} (h : c ∈ Memory.erase m a) : c.1 ≠ a := by
  simpa using (List.mem_filter.mp h).2

theorem read_place (m : Memory) (a b : Nat) (v : Byte) (h : ∀ c ∈ m, c.1 ≠ a) :
    Memory.read (Memory.place (a, v) m) b = if b = a then v else Memory.read m b := by
  induction m with
  | nil => simp [Memory.place, Memory.read, eq_comm]
  | cons d m ih =>
    have hd : d.1 ≠ a := h d (by simp)
    have ih := ih (fun c hc => h c (by simp [hc]))
    by_cases hlt : a < d.1
    · simp [Memory.place, hlt, Memory.read, eq_comm]
    · simp only [Memory.place, if_neg hlt, Memory.read, ih]
      by_cases hdb : d.1 = b
      · have hb : b ≠ a := fun h => hd (hdb.trans h)
        simp [hdb, hb]
      · simp [hdb]

/-- A read after a write gives the value written, and every other offset reads as before. -/
@[simp] theorem read_write (m : Memory) (a b : Nat) (v : Byte) :
    Memory.read (Memory.write m a v) b = if b = a then v else Memory.read m b := by
  unfold Memory.write
  split
  · rename_i hv; rw [read_erase, hv]
  · rw [read_place _ _ _ _ (fun c hc => ne_of_mem_erase hc), read_erase]
    by_cases hb : b = a <;> simp [hb]

/-! ## The canonical form -/

theorem rising_cons {c : Host.Cell} {m : Memory} :
    Memory.rising (c :: m) = true ↔ (∀ d ∈ m, c.1 < d.1) ∧ Memory.rising m = true := by
  simp [Memory.rising]

theorem rising_erase {m : Memory} (a : Nat) (h : Memory.rising m = true) :
    Memory.rising (Memory.erase m a) = true := by
  induction m with
  | nil => simpa [Memory.erase] using h
  | cons c m ih =>
    obtain ⟨hlt, hm⟩ := rising_cons.mp h
    by_cases hc : c.1 = a
    · simpa [Memory.erase, hc] using ih hm
    · have : Memory.erase (c :: m) a = c :: Memory.erase m a := by simp [Memory.erase, hc]
      rw [this, rising_cons]
      exact ⟨fun d hd => hlt d (List.mem_of_mem_filter hd), ih hm⟩

theorem mem_place {c x : Host.Cell} {m : Memory} : x ∈ Memory.place c m ↔ x = c ∨ x ∈ m := by
  induction m with
  | nil => simp [Memory.place]
  | cons d m ih =>
    unfold Memory.place
    split
    · simp
    · simp only [List.mem_cons, ih]; tauto

theorem rising_place {c : Host.Cell} {m : Memory} (hne : ∀ d ∈ m, d.1 ≠ c.1) (h : Memory.rising m = true) :
    Memory.rising (Memory.place c m) = true := by
  induction m with
  | nil => simp [Memory.place, Memory.rising]
  | cons d m ih =>
    obtain ⟨hlt, hm⟩ := rising_cons.mp h
    unfold Memory.place
    split
    · rename_i hcd
      rw [rising_cons]
      refine ⟨fun x hx => ?_, h⟩
      rcases List.mem_cons.mp hx with rfl | hx
      · exact hcd
      · exact hcd.trans (hlt x hx)
    · rename_i hcd
      rw [rising_cons]
      refine ⟨fun x hx => ?_, ih (fun y hy => hne y (by simp [hy])) hm⟩
      rcases mem_place.mp hx with rfl | hx
      · have := hne d (by simp)
        omega
      · exact hlt x hx

theorem wf_iff {m : Memory} :
    Memory.wf m = true ↔ Memory.rising m = true ∧ (∀ c ∈ m, c.1 < 8) ∧ ∀ c ∈ m, c.2 ≠ Memory.unlisted := by
  simp [Memory.wf, and_assoc]

theorem wf_nil : Memory.wf [] = true := rfl

theorem wf_erase {m : Memory} (a : Nat) (h : Memory.wf m = true) : Memory.wf (Memory.erase m a) = true := by
  rw [wf_iff] at h ⊢
  exact ⟨rising_erase a h.1, fun c hc => h.2.1 c (List.mem_of_mem_filter hc),
    fun c hc => h.2.2 c (List.mem_of_mem_filter hc)⟩

/-- A write inside the buffer keeps the canonical form. -/
theorem wf_write {m : Memory} {a : Nat} (v : Byte) (ha : a < 8) (h : Memory.wf m = true) :
    Memory.wf (Memory.write m a v) = true := by
  unfold Memory.write
  split
  · exact wf_erase a h
  · rename_i hv
    have he := wf_iff.mp (wf_erase a h)
    rw [wf_iff]
    refine ⟨rising_place (fun d hd => ne_of_mem_erase hd) he.1, fun c hc => ?_, fun c hc => ?_⟩
    · rcases mem_place.mp hc with rfl | hc
      · exact ha
      · exact he.2.1 c hc
    · rcases mem_place.mp hc with rfl | hc
      · exact hv
      · exact he.2.2 c hc

/-- A store of several bytes inside the buffer keeps the canonical form. -/
theorem wf_writeBytes {m : Memory} {a : Nat} (vs : List Byte) (ha : a + vs.length ≤ 8) (h : Memory.wf m = true) :
    Memory.wf (Memory.writeBytes m a vs) = true := by
  induction vs generalizing m a with
  | nil => exact h
  | cons v vs ih =>
    simp only [List.length_cons] at ha
    exact ih (by omega) (wf_write v (by omega) h)

/-- A store leaves every offset outside its bytes as it was. -/
theorem read_writeBytes_of_outside (m : Memory) (a b : Nat) (vs : List Byte) (h : b < a ∨ a + vs.length ≤ b) :
    Memory.read (Memory.writeBytes m a vs) b = Memory.read m b := by
  induction vs generalizing m a with
  | nil => rfl
  | cons v vs ih =>
    simp only [List.length_cons] at h
    rw [Memory.writeBytes, ih _ _ (by omega), read_write, if_neg (by omega)]

end Sys2Proof.Machine.Memory
end

