-- ==== Sys2Proof/Laws/Scratch.lean ====
section
/-! SUPPORT. What the scratch buffer's accesses answer, once: the word functions give the same result with a buffer as without
one, in either byte order, and keep the buffer's canonical form. -/

namespace Sys2Proof.Machine

open Config (Endian)

/-- Two neighbouring slices joined are one slice. -/
theorem slice_append {n : Nat} (x : BitVec n) (lo len₁ len₂ : Nat) :
    x.extractLsb' (lo + len₂) len₁ ++ x.extractLsb' lo len₂ = x.extractLsb' lo (len₁ + len₂) := by
  ext i hi
  rw [BitVec.getElem_append]
  split <;> simp only [BitVec.getElem_extractLsb']
  congr 1; omega

/-- The four bytes of a word, joined from the top. -/
theorem join_bytes32 {n : Nat} (x : BitVec n) (lo : Nat) :
    x.extractLsb' (lo + 24) 8 ++ x.extractLsb' (lo + 16) 8 ++ x.extractLsb' (lo + 8) 8 ++ x.extractLsb' lo 8
      = x.extractLsb' lo 32 := by
  have h3 := slice_append x (lo + 16) 8 8
  have h2 := slice_append x (lo + 8) 16 8
  have h1 := slice_append x lo 24 8
  simp only [Nat.add_assoc, Nat.reduceAdd] at h1 h2 h3
  rw [h3, h2, h1]

/-- The eight bytes of a pattern, joined from the top. -/
theorem join_bytes64 (x : F64) :
    x.extractLsb' 56 8 ++ x.extractLsb' 48 8 ++ x.extractLsb' 40 8 ++ x.extractLsb' 32 8 ++ x.extractLsb' 24 8
      ++ x.extractLsb' 16 8 ++ x.extractLsb' 8 8 ++ x.extractLsb' 0 8 = x := by
  have h7 := slice_append x 48 8 8
  have h6 := slice_append x 40 16 8
  have h5 := slice_append x 32 24 8
  have h4 := slice_append x 24 32 8
  have h3 := slice_append x 16 40 8
  have h2 := slice_append x 8 48 8
  have h1 := slice_append x 0 56 8
  simp only [Nat.reduceAdd] at h1 h2 h3 h4 h5 h6 h7
  rw [h7, h6, h5, h4, h3, h2, h1, BitVec.extractLsb'_eq_self]

theorem slice_all32 (w : U32) : w.extractLsb' 0 32 = w := BitVec.extractLsb'_eq_self

/-! ## Bytes after a store -/

@[simp] theorem bytes64_length (e : Endian) (x : F64) : (bytes64 e x).length = 8 := by cases e <;> rfl

@[simp] theorem bytes32_length (e : Endian) (w : U32) : (bytes32 e w).length = 4 := by cases e <;> rfl

/-- `MemWrite(0, 8, x)` then `MemRead(4*HIGH_IDX, 4)` (20_memory.md R62). -/
theorem memRead32_high_memWrite64 (e : Endian) (m : Memory) (x : F64) :
    memRead32 e (memWrite64 e m x) (highIdx e) = x.extractLsb' 32 32 := by
  have h := join_bytes32 x 32
  simp only [Nat.reduceAdd] at h
  cases e <;> simpa [memRead32, memWrite64, bytes64, highIdx, Memory.writeBytes] using h

/-- `MemWrite(0, 8, x)` then `MemRead(4*LOW_IDX, 4)` (20_memory.md R62). -/
theorem memRead32_low_memWrite64 (e : Endian) (m : Memory) (x : F64) :
    memRead32 e (memWrite64 e m x) (lowIdx e) = x.extractLsb' 0 32 := by
  have h := join_bytes32 x 0
  simp only [Nat.zero_add] at h
  cases e <;> simpa [memRead32, memWrite64, bytes64, lowIdx, Memory.writeBytes] using h

/-- Joining four bytes below a word one at a time joins their word below it. -/
theorem append_bytes (h : U32) (a b c d : Byte) :
    (h ++ a ++ b ++ c ++ d : BitVec 64) = h ++ (a ++ b ++ c ++ d : BitVec 32) := by
  have h₁ : (h ++ a ++ b ++ c ++ d : BitVec 64) = h ++ (a ++ (b ++ (c ++ d))) := by
    rw [BitVec.append_assoc, BitVec.append_assoc, BitVec.append_assoc]; simp
  have h₂ : (a ++ b ++ c ++ d : BitVec 32) = a ++ (b ++ (c ++ d)) := by
    rw [BitVec.append_assoc, BitVec.append_assoc]; simp
  rw [h₁, h₂]

/-- Both words stored, then `MemRead(0, 8)` (20_memory.md R74). -/
theorem memRead64_memWrite32_memWrite32 (e : Endian) (m : Memory) (high low : U32) :
    memRead64 e (memWrite32 e (memWrite32 e m (highIdx e) high) (lowIdx e) low) = high ++ low := by
  have hh := join_bytes32 high 0
  have hl := join_bytes32 low 0
  simp only [Nat.zero_add, slice_all32] at hh hl
  cases e <;>
    simp [memRead64, memWrite32, bytes32, highIdx, lowIdx, Memory.writeBytes]
  all_goals
    rw [append_bytes, hh, hl]

/-! ## The word functions -/

variable (p : Config.Params) (m : Memory)

/-- `words` through the buffer, or without one, is `words` (20_memory.md R74, 40_word_ops.md R109). -/
@[simp] theorem scrWords_result (x : F64) : (scrWords p m x).1 = words x := by
  unfold scrWords
  split
  · simp only [memRead32_high_memWrite64, memRead32_low_memWrite64]; rfl
  · rfl

/-- `highWord` through the buffer, or without one, is `highWord`. -/
@[simp] theorem scrHighWord_result (x : F64) : (scrHighWord p m x).1 = highWord x := by
  unfold scrHighWord
  split
  · simp only [memRead32_high_memWrite64]; rfl
  · rfl

/-- `fromWords` through the buffer, or without one, is `fromWords`. -/
@[simp] theorem scrFromWords_result (high low : U32) : (scrFromWords p m high low).1 = fromWords high low := by
  unfold scrFromWords
  split
  · simp only [memRead64_memWrite32_memWrite32]; rfl
  · rfl

/-- `copySign` through the buffer, or without one, is `copySign`. -/
@[simp] theorem scrCopySign_result (mag sgn : F64) : (scrCopySign p m mag sgn).1 = copySign mag sgn := by
  simp [scrCopySign, copySign]

/-! ## The buffer's content afterwards -/

/-- `words` leaves the pattern's bytes in the buffer, where there is one. -/
theorem scrWords_scr (x : F64) :
    (scrWords p m x).2 = if p.hasScratch then memWrite64 p.hostEndian m x else m := by
  unfold scrWords; split <;> rfl

/-- `highWord` leaves the pattern's bytes in the buffer, where there is one. -/
theorem scrHighWord_scr (x : F64) :
    (scrHighWord p m x).2 = if p.hasScratch then memWrite64 p.hostEndian m x else m := by
  unfold scrHighWord; split <;> rfl

/-- `fromWords` leaves the two words' bytes in the buffer, where there is one. -/
theorem scrFromWords_scr (high low : U32) :
    (scrFromWords p m high low).2 =
      if p.hasScratch then
        memWrite32 p.hostEndian (memWrite32 p.hostEndian m (highIdx p.hostEndian) high) (lowIdx p.hostEndian) low
      else m := by
  unfold scrFromWords; split <;> rfl

theorem wf_memWrite64 {m : Memory} (e : Endian) (x : F64) (h : Memory.wf m = true) :
    Memory.wf (memWrite64 e m x) = true :=
  Memory.wf_writeBytes _ (by simp) h

theorem wf_memWrite32 {m : Memory} {j : Nat} (e : Endian) (w : U32) (hj : j ≤ 1) (h : Memory.wf m = true) :
    Memory.wf (memWrite32 e m j w) = true :=
  Memory.wf_writeBytes _ (by simp; omega) h

theorem highIdx_le (e : Endian) : highIdx e ≤ 1 := by cases e <;> decide

theorem lowIdx_le (e : Endian) : lowIdx e ≤ 1 := by cases e <;> decide

theorem wf_scrWords {m : Memory} (x : F64) (h : Memory.wf m = true) : Memory.wf (scrWords p m x).2 = true := by
  rw [scrWords_scr]; split
  · exact wf_memWrite64 _ _ h
  · exact h

theorem wf_scrHighWord {m : Memory} (x : F64) (h : Memory.wf m = true) : Memory.wf (scrHighWord p m x).2 = true := by
  rw [scrHighWord_scr]; split
  · exact wf_memWrite64 _ _ h
  · exact h

theorem wf_scrFromWords {m : Memory} (high low : U32) (h : Memory.wf m = true) :
    Memory.wf (scrFromWords p m high low).2 = true := by
  rw [scrFromWords_scr]; split
  · exact wf_memWrite32 _ _ (lowIdx_le _) (wf_memWrite32 _ _ (highIdx_le _) h)
  · exact h

theorem wf_scrCopySign {m : Memory} (mag sgn : F64) (h : Memory.wf m = true) :
    Memory.wf (scrCopySign p m mag sgn).2 = true :=
  wf_scrFromWords p _ _ (wf_scrHighWord p _ (wf_scrWords p _ h))

end Sys2Proof.Machine
end

