-- ==== Sys2Proof/Laws/State.lean ====
section
/-! SUPPORT. What each update of State leaves alone: one lemma per field per update, all by rfl. -/

namespace Sys2Proof.Machine

variable (s : State)

section Outputs
variable (r : Response) (o : TrigOut)
@[simp] theorem State.withOutputs_cfg : (s.withOutputs r o).cfg = s.cfg := rfl
@[simp] theorem State.withOutputs_pending : (s.withOutputs r o).pending = s.pending := rfl
@[simp] theorem State.withOutputs_inp : (s.withOutputs r o).inp = s.inp := rfl
@[simp] theorem State.withOutputs_rsp : (s.withOutputs r o).rsp = r := rfl
@[simp] theorem State.withOutputs_trig : (s.withOutputs r o).trig = o := rfl
@[simp] theorem State.withOutputs_scr : (s.withOutputs r o).scr = s.scr := rfl
end Outputs

section Scr
variable (m : Memory)
@[simp] theorem State.withScr_cfg : (s.withScr m).cfg = s.cfg := rfl
@[simp] theorem State.withScr_pending : (s.withScr m).pending = s.pending := rfl
@[simp] theorem State.withScr_inp : (s.withScr m).inp = s.inp := rfl
@[simp] theorem State.withScr_rsp : (s.withScr m).rsp = s.rsp := rfl
@[simp] theorem State.withScr_trig : (s.withScr m).trig = s.trig := rfl
@[simp] theorem State.withScr_scr : (s.withScr m).scr = m := rfl
end Scr

section Tp
variable (p : F64)
@[simp] theorem State.withTp_cfg : (s.withTp p).cfg = s.cfg := rfl
@[simp] theorem State.withTp_pending : (s.withTp p).pending = s.pending := rfl
@[simp] theorem State.withTp_req : (s.withTp p).inp.req = s.inp.req := rfl
@[simp] theorem State.withTp_tp : (s.withTp p).inp.tp = p := rfl
@[simp] theorem State.withTp_rsp : (s.withTp p).rsp = s.rsp := rfl
@[simp] theorem State.withTp_trig : (s.withTp p).trig = s.trig := rfl
@[simp] theorem State.withTp_scr : (s.withTp p).scr = s.scr := rfl
end Tp

section Inputs
variable (i : Inputs) (rest : List Inputs)
@[simp] theorem State.withInputs_cfg : (s.withInputs i rest).cfg = s.cfg := rfl
@[simp] theorem State.withInputs_pending : (s.withInputs i rest).pending = rest := rfl
@[simp] theorem State.withInputs_inp : (s.withInputs i rest).inp = i := rfl
@[simp] theorem State.withInputs_rsp : (s.withInputs i rest).rsp = s.rsp := rfl
@[simp] theorem State.withInputs_trig : (s.withInputs i rest).trig = s.trig := rfl
@[simp] theorem State.withInputs_scr : (s.withInputs i rest).scr = s.scr := rfl
end Inputs

/-! Taking the next request touches the input ports and the list of pending inputs only. -/

@[simp] theorem fetch_cfg : (fetch s).cfg = s.cfg := by unfold fetch; split <;> rfl
@[simp] theorem fetch_rsp : (fetch s).rsp = s.rsp := by unfold fetch; split <;> rfl
@[simp] theorem fetch_trig : (fetch s).trig = s.trig := by unfold fetch; split <;> rfl
@[simp] theorem fetch_scr : (fetch s).scr = s.scr := by unfold fetch; split <;> rfl

theorem fetch_of_empty (h : s.pending = []) : fetch s = s := by
  simp only [fetch, h]

theorem fetch_of_cons {i : Inputs} {rest : List Inputs} (h : s.pending = i :: rest) :
    fetch s = s.withInputs i rest := by
  simp only [fetch, h]

@[simp] theorem fetch_withInputs_nil (i : Inputs) : fetch (s.withInputs i []) = s.withInputs i [] := rfl

end Sys2Proof.Machine
end

