-- ==== Sys2Proof/Laws/Ops.lean ====
section
/-! SUPPORT. Everything the shared endings of a transaction can do: each answers a next state, this one. -/

namespace Sys2Proof.Machine

theorem respond_eq_next {r : Response} {s t : State} :
    respond r s = .next t ↔ t = s.withOutputs r TrigOut.idle := by
  simp [respond, eq_comm]

theorem raise_eq_next {e : Exc} {info : BitVec 64} {s t : State} :
    raise e info s = .next t ↔ t = s.withOutputs (faultResponse e info) TrigOut.idle :=
  respond_eq_next

theorem rejectOp_eq_next {op : BitVec 3} {s t : State} :
    rejectOp op s = .next t ↔ t = s.withOutputs (faultResponse .illegalOp (op.setWidth 64)) TrigOut.idle :=
  raise_eq_next

theorem exchange_eq_next {prim : Prim} {u : F64} {k : F64 → Response} {s t : State} :
    exchange prim u k s = .next t ↔
      t = (s.withTp (trigAnswer s.cfg prim u s.inp.tp)).withOutputs (k (trigAnswer s.cfg prim u s.inp.tp))
        { treq := true, tprim := prim, tu := u } := by
  simp [exchange, eq_comm]

/-- An attached trig unit's answer does not depend on what stood on the wire, for the two primitives a `SINPI` can ask
for. -/
theorem trigAnswer_attached {p : Config.Params} (h : p.trigAttached = true) (u tp : F64) :
    trigAnswer p .sin u tp = Config.sin64 u ∧ trigAnswer p .cos u tp = Config.cos64 u := by
  simp [trigAnswer, h]

/-- With no trig unit the wire's own value is the answer. -/
theorem trigAnswer_absent {p : Config.Params} (h : p.trigAttached = false) (prim : Prim) (u tp : F64) :
    trigAnswer p prim u tp = tp := by
  simp [trigAnswer, h]

end Sys2Proof.Machine
end

