-- ==== Sys2Proof/Laws/PerInstr.lean ====
section
/-! SUPPORT. Statements made instruction by instruction. TableRow: the canonical word of an instruction matches its own row of the
opcode map (30_encoding.md R86) and no other row, whatever its operands. -/

namespace Sys2Proof.Laws.TableRow

/-- The encoded instruction matches exactly the rows that carry its mnemonic. -/
def Statement (i : Instr) : Prop :=
  ∀ row ∈ opcodeTable, encodeBits i &&& row.mask = row.pattern ↔ row.mnemonic = mnemonicOf i

/-- The mask of the opcode map keeps the operation code and nothing else. -/
theorem pack_and_mask (q : Request) :
    q.pack &&& 0x700000000000000000000000000000000#131 = q.op ++ 0#128 := by
  have hm : (0x700000000000000000000000000000000#131) = (BitVec.allOnes 3 ++ 0#128 : BitVec 131) := by decide
  apply BitVec.eq_of_getLsbD_eq
  intro i hi
  rw [hm]
  simp only [Request.pack, BitVec.getLsbD_and, BitVec.getLsbD_append, BitVec.getLsbD_allOnes]
  by_cases h : i < 128
  · simp [h]
  · have h1 : i - 128 < 3 := by omega
    have h2 : ¬ i < 64 := by omega
    have h3 : ¬ i - 64 < 64 := by omega
    simp [h, h1, h2, h3, Nat.sub_sub]

/-- Every instruction's code selects its own row: the rest is a check of the six codes. -/
theorem of_code {i : Instr} (op : BitVec 3) (name : String) (hop : (encode i).op = op) (hname : mnemonicOf i = name)
    (h : ∀ row ∈ opcodeTable, row.mask = 0x700000000000000000000000000000000#131 ∧
      (op ++ 0#128 = row.pattern ↔ row.mnemonic = name)) : Statement i := by
  intro row hrow
  obtain ⟨hm, hp⟩ := h row hrow
  rw [encodeBits, hm, pack_and_mask, hop, hname]
  exact hp

theorem decomp (x : F64) : Statement (.decomp x) :=
  of_code 0 "DECOMP" rfl rfl (by decide)

theorem compose (high low : U32) : Statement (.compose high low) :=
  of_code 1 "COMPOSE" rfl rfl (by decide)

theorem hiword (x : F64) : Statement (.hiword x) :=
  of_code 2 "HIWORD" rfl rfl (by decide)

theorem cpysgn (mag sgn : F64) : Statement (.cpysgn mag sgn) :=
  of_code 3 "CPYSGN" rfl rfl (by decide)

theorem rrd (x : F64) : Statement (.rrd x) :=
  of_code 4 "RRD" rfl rfl (by decide)

theorem sinpi (x : F64) : Statement (.sinpi x) :=
  of_code 5 "SINPI" rfl rfl (by decide)

end Sys2Proof.Laws.TableRow
end

