-- ==== Sys2Proof/Laws/Step.lean ====
section
/-! SUPPORT. What a transaction can do to the state, once: the shape of every next state of `exec` and of `step`. -/

namespace Sys2Proof.Machine

/-- The shape of a transaction: `TP`, the buffer and the outputs may change, the buffer keeps its canonical form, and
either there is no trig request and `TP` stands, or there is one, `TP` is its answer and the buffer stands. -/
def Transacts (s t : State) : Prop :=
  ∃ (p : F64) (m : Memory) (r : Response) (o : TrigOut),
    t = ((s.withTp p).withScr m).withOutputs r o ∧ (Memory.wf s.scr = true → Memory.wf m = true) ∧
    ((o = TrigOut.idle ∧ p = s.inp.tp) ∨
      ∃ prim u, o = { treq := true, tprim := prim, tu := u } ∧ p = trigAnswer s.cfg prim u s.inp.tp ∧ m = s.scr)

theorem transacts_of_respond {r : Response} {m : Memory} {s t : State} (hm : Memory.wf s.scr = true → Memory.wf m = true)
    (h : respond r (s.withScr m) = .next t) : Transacts s t :=
  ⟨s.inp.tp, m, r, TrigOut.idle, respond_eq_next.mp h, hm, .inl ⟨rfl, rfl⟩⟩

theorem transacts_of_respond_self {r : Response} {s t : State} (h : respond r s = .next t) : Transacts s t :=
  ⟨s.inp.tp, s.scr, r, TrigOut.idle, respond_eq_next.mp h, id, .inl ⟨rfl, rfl⟩⟩

theorem transacts_of_exchange {prim : Prim} {u : F64} {k : F64 → Response} {s t : State}
    (h : exchange prim u k s = .next t) : Transacts s t :=
  ⟨trigAnswer s.cfg prim u s.inp.tp, s.scr, k (trigAnswer s.cfg prim u s.inp.tp),
    { treq := true, tprim := prim, tu := u }, exchange_eq_next.mp h, id, .inr ⟨prim, u, rfl, rfl, rfl⟩⟩

/-- Every instruction's next state has the shape of a transaction. -/
theorem exec_transacts {i : Instr} {s t : State} (h : exec i s = .next t) : Transacts s t := by
  cases i with
  | decomp x => exact transacts_of_respond (wf_scrWords _ x) h
  | compose high low => exact transacts_of_respond (wf_scrFromWords _ high low) h
  | hiword x => exact transacts_of_respond (wf_scrHighWord _ x) h
  | cpysgn mag sgn => exact transacts_of_respond (wf_scrCopySign _ mag sgn) h
  | rrd x =>
    simp only [exec, execRrd] at h
    split at h
    · exact transacts_of_respond_self h
    · split at h <;> exact transacts_of_respond_self h
  | sinpi x =>
    simp only [exec, execSinpi] at h
    split at h
    · exact transacts_of_respond_self h
    · split at h
      · exact transacts_of_respond_self h
      · split at h
        · exact transacts_of_respond_self h
        · exact transacts_of_exchange h

/-- Every step's next state has the shape of a transaction from the state with the request taken. -/
theorem step_transacts {s t : State} (h : step s = .next t) : Transacts (fetch s) t := by
  unfold step at h
  split at h
  · exact exec_transacts h
  · exact transacts_of_respond_self h

end Sys2Proof.Machine
end

