-- ==== Sys2Proof/Tests/Slice0.lean ====
section
/-! SUPPORT. Tests, each expected value from 95_test_vectors.md or the rule named, and a witness for every statement that has
hypotheses. -/

-- The tests are checked one after another: many kernel checks at once each take a thread with a stack of its own.
set_option Elab.async false

namespace Sys2Proof.Tests

open Sys2Proof Sys2Proof.Machine

/-! ## Helpers -/

/-- A machine with a buffer of the given byte order and stale bytes, and no trig unit: `p` stands on `TP`. -/
def bench (e : Config.Endian) (p : F64) : State :=
  { State.reset with
    cfg := { hostEndian := e, hasScratch := true, trigAttached := false }
    inp := { req := State.reset.inp.req, tp := p }
    scr := [(0, 0xAA#8), (1, 0xAA#8), (7, 0xAA#8)] }

/-- The state a step or an instruction answers, if it is a next state. -/
def nextOf : Host.Outcome State Fault Refusal → Option State
  | .next t => some t
  | .refused _ => none

/-- The response of an instruction on the little-endian bench. -/
def answer (i : Instr) : Option Response := (nextOf (exec i (bench .little 0))).map (fun t => t.rsp)

/-! ## Well-formedness: a term each check refuses -/

theorem test_wf_reserved_code_refused : Request.legal { op := 6, a := 0, b := 0 } = false := by decide
theorem test_wf_code_five_accepted : Request.legal { op := 5, a := 0, b := 0 } = true := by decide
theorem test_wf_ignored_b_refused : Request.ignoredBitsZero { op := 0, a := 0, b := 1 } = false := by decide
theorem test_wf_ignored_compose_a_refused :
    Request.ignoredBitsZero { op := 1, a := 0xFFFFFFFF3FF00000#64, b := 0 } = false := by decide
theorem test_wf_ignored_compose_b_refused :
    Request.ignoredBitsZero { op := 1, a := 0, b := 0xDEADBEEF00000000#64 } = false := by decide
theorem test_wf_cpysgn_ignores_nothing :
    Request.canonical { op := 3, a := 0xFFFFFFFFFFFFFFFF#64, b := 0xFFFFFFFFFFFFFFFF#64 } = true := by decide
theorem test_wf_canonical_refuses_code : Request.canonical { op := 7, a := 0, b := 0 } = false := by decide

/-! ## Decoding: words of 95_test_vectors.md, sections 2.6 and 3, and every constructor -/

theorem test_decode_decomp :
    decodeTableWord 136 0x0400921FB54442D180000000000000000 = some (.decomp 0x400921FB54442D18#64) := by decide
theorem test_decode_compose :
    decodeTableWord 136 0x100000000BFD555550000000055555555 = some (.compose 0xBFD55555#32 0x55555555#32) := by decide
theorem test_decode_hiword :
    decodeTableWord 136 0x280000000000000000000000000000000 = some (.hiword 0x8000000000000000#64) := by decide
theorem test_decode_cpysgn :
    decodeTableWord 136 0x37FF0000000000000FFF0000000000000 =
      some (.cpysgn 0x7FF0000000000000#64 0xFFF0000000000000#64) := by decide
theorem test_decode_rrd :
    decodeTableWord 136 0x440080000000000000000000000000000 = some (.rrd 0x4008000000000000#64) := by decide
theorem test_decode_sinpi :
    decodeTableWord 136 0x5FFF123456789ABCD0000000000000000 = some (.sinpi 0xFFF123456789ABCD#64) := by decide
theorem test_decode_reserved_by_name :
    decodeBits 0x700000000000012340000000000000000#131 = .reservedOp 7#3 := by decide
theorem test_decode_too_wide : decodeTableWord 136 (2 ^ 131) = none := by decide
theorem test_encode_compose :
    encodeBits (.compose 0xFFF12345#32 0x6789ABCD#32) = 0x100000000FFF12345000000006789ABCD#131 := by decide
theorem test_encode_cpysgn :
    encodeBits (.cpysgn 0x3FEBB67AE8584CAA#64 0x3FD5555555555555#64) =
      0x33FEBB67AE8584CAA3FD5555555555555#131 := by decide
theorem test_rows_do_not_overlap :
    opcodeTable.Pairwise (fun a b => a.mask = b.mask ∧ a.pattern ≠ b.pattern) := by decide
/-- 30_encoding.md R85, with non-zero ignored bits (95_test_vectors.md, section 2.1). -/
theorem test_decode_compose_ignores_high_bits :
    decode { op := 1, a := 0xFFFFFFFF3FF00000#64, b := 0xDEADBEEF00000000#64 } = .instr (.compose 0x3FF00000#32 0) := by
  decide

/-! ## One step of each operation (95_test_vectors.md, sections 2.1 to 2.6) -/

/-- Full record of `DECOMP` of pi, through the buffer (section 2.1). -/
theorem test_decomp_pi :
    answer (.decomp 0x400921FB54442D18#64) =
      some { Response.zero with hi := 0x400921FB#32, lo := 0x54442D18#32 } := by decide

/-- The buffer after it, both byte orders (section 2.7). -/
theorem test_decomp_scratch :
    (nextOf (exec (.decomp 0x400921FB54442D18#64) (bench .little 0))).map (fun t => t.scr) =
      some [(0, 0x18#8), (1, 0x2D#8), (2, 0x44#8), (3, 0x54#8), (4, 0xFB#8), (5, 0x21#8), (6, 0x09#8), (7, 0x40#8)] ∧
    (nextOf (exec (.decomp 0x400921FB54442D18#64) (bench .big 0))).map (fun t => t.scr) =
      some [(0, 0x40#8), (1, 0x09#8), (2, 0x21#8), (3, 0xFB#8), (4, 0x54#8), (5, 0x44#8), (6, 0x2D#8), (7, 0x18#8)] := by
  decide

theorem test_compose_signalling_nan :
    answer (.compose 0x7FF00000#32 0x00000001#32) = some { Response.zero with y := 0x7FF0000000000001#64 } := by decide

/-- Section 2.7: the buffer of a `COMPOSE`, big-endian; zero bytes are not listed. -/
theorem test_compose_scratch_big :
    (nextOf (exec (.compose 0xBFF00000#32 0x00000001#32) (bench .big 0))).map (fun t => t.scr) =
      some [(0, 0xBF#8), (1, 0xF0#8), (7, 0x01#8)] := by decide

/-- Program P6: no stale byte reaches the answer, and `LO` is zero. -/
theorem test_hiword_does_not_leak :
    (nextOf (exec (.hiword 0xBFF0000000000001#64) (bench .big 0))).map (fun t => t.rsp) =
      some { Response.zero with hi := 0xBFF00000#32 } := by decide

theorem test_cpysgn_nan_payload :
    answer (.cpysgn 0xFFF123456789ABCD#64 0#64) = some { Response.zero with y := 0x7FF123456789ABCD#64 } := by decide

theorem test_cpysgn_minus_zero_source :
    answer (.cpysgn 0x3FD5555555555555#64 0x8000000000000000#64) =
      some { Response.zero with y := 0xBFD5555555555555#64 } := by decide

/-- `(A, R, SEL, T, TU)` from the table of section 2.3: band and row boundaries, signs, subnormals. -/
def rrdVectors : List (F64 × F64 × Sel × F64 × F64) :=
  [(0x8000000000000000#64, 0x8000000000000000#64, .case0, 0#64, 0#64),
   (0xC014000000000000#64, 0xBFF0000000000000#64, .case0, 0#64, 0#64),
   (0x3FCFFFFFFFFFFFFF#64, 0x3FCFFFFFFFFFFFFF#64, .case1, 0x3FCFFFFFFFFFFFFF#64, 0x3FE921FB54442D17#64),
   (0xBFD0000000000000#64, 0xBFD0000000000000#64, .case2, 0x3FD0000000000000#64, 0x3FE921FB54442D18#64),
   (0x3FE7FFFFFFFFFFFF#64, 0x3FE7FFFFFFFFFFFF#64, .case2, 0xBFCFFFFFFFFFFFFC#64, 0xBFE921FB54442D15#64),
   (0x401C666666666666#64, 0x3FF1999999999998#64, .case3, 0xBFB9999999999980#64, 0xBFD41B2F769CF0CC#64),
   (0x3FF8000000000000#64, 0x3FF8000000000000#64, .case4, 0#64, 0#64),
   (0xBFFE000000000000#64, 0xBFFE000000000000#64, .case5, 0x3FC0000000000000#64, 0x3FD921FB54442D18#64),
   (0x4000000000000001#64, 0x3CC0000000000000#64, .case1, 0x3CC0000000000000#64, 0x3CD921FB54442D18#64),
   (0x4330000000000001#64, 0x3FF0000000000000#64, .case0, 0#64, 0#64),
   (0x4340000000000001#64, 0x0000000000000000#64, .case0, 0#64, 0#64),
   (0x000FFFFFFFFFFFFF#64, 0x000FFFFFFFFFFFFF#64, .case1, 0x000FFFFFFFFFFFFF#64, 0x002921FB54442D16#64)]

theorem test_rrd_vectors :
    rrdVectors.all (fun v => answer (.rrd v.1) ==
      some { Response.zero with r := v.2.1, sel := v.2.2.1, prim := primOf v.2.2.1, t := v.2.2.2.1 }) = true := by
  decide +kernel

theorem test_rrd_minus_infinity :
    answer (.rrd 0xFFF0000000000000#64) =
      some { Response.zero with status := .invalidArg, einfo := 0xFFF0000000000000#64 } := by decide

/-- The trig request of the same operands (last column of section 2.3), where there is one. -/
theorem test_sinpi_requests :
    (rrdVectors.filter (fun v => v.2.2.1 != .case0)).all (fun v =>
      (nextOf (exec (.sinpi v.1) (bench .little 0))).map (fun t => t.trig) ==
        some { treq := true, tprim := primOf v.2.2.1, tu := v.2.2.2.2 }) = true := by
  decide +kernel

/-- Section 2.5: the answer is taken unchecked (a "cosine" of -2.0 and a "sine" that is a NaN), and the sign fix-up of row
4 for the illustrative answer. -/
theorem test_sinpi_answers :
    (nextOf (exec (.sinpi 0x3FE0000000000000#64) (bench .little 0xC000000000000000#64))).map (fun t => t.rsp) =
      some { Response.zero with y := 0x4000000000000000#64 } ∧
    (nextOf (exec (.sinpi 0x3FC0000000000000#64) (bench .little 0x7FF8000000000001#64))).map (fun t => t.rsp) =
      some { Response.zero with y := 0x7FF8000000000001#64 } ∧
    (nextOf (exec (.sinpi 0x3FF4000000000000#64) (bench .little 0x3FE6A09E667F3BCD#64))).map (fun t => t.rsp) =
      some { Response.zero with y := 0xBFE6A09E667F3BCD#64 } := by decide +kernel

/-- Rounding of the product near the subnormals (section 2.4). -/
theorem test_mulPi_subnormal :
    mulPi 0x0000000000000005#64 = 0x0000000000000010#64 ∧ mulPi 0x8000000000000001#64 = 0x8000000000000003#64 ∧
    mulPi 0x000C000000000000#64 = 0x0022D97C7F3321D2#64 := by decide +kernel

/-- Section 2.6: a reserved code, with an infinity and a NaN on the operand ports, through a step from reset. -/
theorem test_step_reserved_code :
    (nextOf (step (State.reset.withFetchWord 136 0x77FF00000000000007FF8000000000000))).map (fun t => (t.rsp, t.trig)) =
      some ({ Response.zero with status := .illegalOp, einfo := 7 }, TrigOut.idle) := by decide

/-- Section 2.5: `sinpi(-2)` is negative zero, through a step from reset. -/
theorem test_step_sinpi_minus_two :
    (nextOf (step (State.reset.withFetchWord 136 0x5C0000000000000000000000000000000))).map (fun t => (t.rsp, t.trig)) =
      some ({ Response.zero with y := 0x8000000000000000#64 }, TrigOut.idle) := by decide +kernel

/-! ## Scripts -/

/-- Program P2: the `LET` line. -/
theorem test_parse_let :
    parseTokens (tokenize "LET h2 = (w.HI & 0x7FFFFFFF) | (s.HI & 0x80000000)   ; = 0xBFD55555".toList []) =
      some (.letBind ['h', '2'] (.or
        (.and (.src (.field ['w'] .hi)) (.src (.lit ⟨32, 0x7FFFFFFF#32⟩)))
        (.and (.src (.field ['s'] .hi)) (.src (.lit ⟨32, 0x80000000#32⟩))))) := by decide +kernel

/-- Digits of either base (00_scope.md R10). -/
theorem test_digits :
    digits 16 ['7', 'F', 'd', '0'] 0 = some 0x7FD0 ∧ digits 10 ['1', '3', '1'] 0 = some 131 ∧
    digits 10 ['1', 'A'] 0 = none ∧ digits 16 ['G'] 0 = none := by decide

/-- Log entry 15: a decimal number as the source of an operation line is a 64-bit pattern. -/
theorem test_parse_decimal_source :
    parseTokens (tokenize "SINPI d, 5".toList []) = some (.sinpi ['d'] (.lit ⟨64, 5#64⟩)) := by decide +kernel

/-- Log entry 15: a decimal number is not taken modulo 2^64; the largest that fits is read. -/
theorem test_literal_does_not_wrap :
    literal "18446744073709551615".toList = some ⟨64, 0xFFFFFFFFFFFFFFFF#64⟩ ∧
    parseTokens (tokenize "RAW e, 18446744073709551622, 0, 0".toList []) = none ∧
    parseTokens (tokenize "RAW e, 6, 0, 0".toList []) = some (.raw ['e'] 6 0 0) := by decide +kernel

/-- Program P3: the `mulPi` of a `LET`; and of an infinity, the free value of log entry 11. -/
theorem test_let_mulPi :
    evalExpr [] (.mulPi (.src (.lit ⟨64, 0x3FC5555555555556#64⟩))) = some ⟨64, 0x3FE0C152382D7366#64⟩ := by
  decide +kernel
theorem test_let_mulPi_infinity :
    evalExpr [] (.mulPi (.src (.lit ⟨64, 0x7FF0000000000000#64⟩))) =
      some ⟨64, Config.mulPiNotFinite 0x7FF0000000000000#64⟩ := rfl

/-- Program P4: a fault stops a script that does not acknowledge it. -/
theorem test_script_fault_stops :
    (runScript [.sinpi ['b'] (.lit ⟨64, 0x7FF0000000000000#64⟩), .sinpi ['c'] (.lit ⟨64, 0#64⟩)] [] State.reset).1 =
      .faulted ['b'] := by decide

/-- Program P4: acknowledged, it goes on. -/
theorem test_script_fault_acknowledged :
    (runScript [.sinpi ['b'] (.lit ⟨64, 0x7FF0000000000000#64⟩), .expect ['b'] .status (.lit ⟨64, 1#64⟩)] []
      State.reset).1 = .finished := by decide

/-! ## Witnesses: a state and operands that meet the hypotheses of each statement, for each of its clauses -/

/-- A state with a request and a `TP` presented on the bench. -/
def presented (op : BitVec 3) (a b tp : BitVec 64) : State :=
  (bench .big 0).present { req := { op := op, a := a, b := b }, tp := tp }

theorem witness_DecodeOfEncodeReturnsTheInstruction :
    Instr.wf (.compose 0xFFFFFFFF#32 0x80000000#32) = true ∧ Instr.wf (.cpysgn 0#64 0xFFFFFFFFFFFFFFFF#64) = true := by
  decide

theorem witness_EncodeOfDecodeIsTheCanonicalRequest :
    decode { op := 1, a := 0xFFFFFFFF3FF00000#64, b := 0 } = .instr (.compose 0x3FF00000#32 0) ∧
    decode { op := 5, a := 1, b := 0 } = .instr (.sinpi 1) ∧ Request.canonical { op := 5, a := 1, b := 0 } = true := by
  decide

theorem witness_OpcodeMapDecidesTheOperation :
    opcodeTable[5]? = some ⟨"SINPI", 0x700000000000000000000000000000000#131, 0x500000000000000000000000000000000#131⟩ ∧
    ⟨"SINPI", 0x700000000000000000000000000000000#131, 0x500000000000000000000000000000000#131⟩ ∈ opcodeTable := by
  decide

theorem witness_OnlyReservedCodesAreIllegal :
    ((fetch (presented 4 0x7FF0000000000000#64 0 0)).inp.req.op = 4 ∧
      isInf (fetch (presented 4 0x7FF0000000000000#64 0 0)).inp.req.a = true) ∧
    (fetch (presented 5 0xFFF0000000000000#64 0 0)).inp.req.op = 5 ∧
      isInf (fetch (presented 5 0xFFF0000000000000#64 0 0)).inp.req.a = true := by decide

/-- One pair of requests for each clause, and a reserved code, where no clause asks anything. -/
theorem witness_IgnoredBitsHaveNoEffect :
    (∀ op : BitVec 3, op = 0 ∨ op = 2 ∨ op = 4 ∨ op = 5 →
      (Request.mk op 7 0).op = (Request.mk op 7 9).op ∧ (Request.mk op 7 0).a = (Request.mk op 7 9).a) ∧
    ((0xFFFFFFFF00000001#64).extractLsb' 0 32 = (1#64).extractLsb' 0 32 ∧
      (0xDEADBEEF00000002#64).extractLsb' 0 32 = (2#64).extractLsb' 0 32) ∧
    (0x8000000000000000#64).extractLsb' 63 1 = (0xFFFFFFFFFFFFFFFF#64).extractLsb' 63 1 ∧
    (Request.mk 7 1 2).op = (Request.mk 7 3 4).op := by decide

theorem witness_StepPerformsTheDecodedRequest :
    decode (fetch (presented 2 1 0 0)).inp.req = .instr (.hiword 1) ∧ (presented 2 1 0 0).pending = [] ∧
    ({ bench .big 0 with pending := [⟨⟨2, 1, 0⟩, 0⟩] } : State).pending = [⟨⟨2, 1, 0⟩, 0⟩] := by decide

theorem witness_APlacedWordIsPerformedNext :
    decodeTableWord 136 0x5C0000000000000000000000000000000 = some (.sinpi 0xC000000000000000#64) := by decide

/-- Every statement about `step s = .next t` has a state that meets it: here one with a trig request, one without, and
both faults. -/
theorem witness_step_next :
    ((nextOf (step (presented 5 0x3FE0000000000000#64 0 0))).map fun t => (t.trig.treq, t.rsp.status)) = some (true, .ok) ∧
    ((nextOf (step (presented 0 1 0 0))).map fun t => (t.trig.treq, t.rsp.status)) = some (false, .ok) ∧
    ((nextOf (step (presented 4 0x7FF0000000000000#64 0 0))).map fun t => t.rsp.status) = some .invalidArg ∧
    ((nextOf (step (presented 6 0 0 0))).map fun t => t.rsp.status) = some .illegalOp := by decide +kernel

theorem witness_StepRefinesTheStatelessUnit : ∃ t, step (presented 5 0x3FE0000000000000#64 0 0) = .next t := ⟨_, rfl⟩

/-- A state of the invariant with a buffer and a response other than the reset one: after a `HIWORD`. -/
theorem witness_StepKeepsTheInvariant :
    ∃ s t, step (presented 2 0xBFF0000000000001#64 0 0) = .next s ∧ Inv s ∧ step s = .next t := by
  refine ⟨_, _, rfl, ⟨⟨?_, ?_⟩, ?_, ?_⟩, rfl⟩
  · decide
  · decide
  · intro h; cases h
  · decide

theorem witness_NoResponseDependsOnAnEarlierTransaction :
    (bench .little 5).cfg.trigAttached = (presented 5 0 0 0).cfg.trigAttached ∧
    (bench .little 5).cfg.hostEndian ≠ (presented 5 0 0 0).cfg.hostEndian := by decide

theorem witness_EarlierTransactionsChangeNoResponse :
    ∃ t, Sys2Proof.core.run 2 (presented 0 0x400921FB54442D18#64 0 0) = .next t := ⟨_, rfl⟩

theorem witness_ParametersNeverChange : ∃ t, step (presented 3 1 2 0) = .next t := ⟨_, rfl⟩

/-- Each clause of the frame: no trig request, no buffer, and the two operations that leave the buffer alone. -/
theorem witness_InstructionFrame :
    (∃ t, exec (.rrd 0x3FD5555555555555#64) (bench .little 0) = .next t ∧ t.trig.treq = false) ∧
    State.reset.cfg.hasScratch = false ∧ (∃ t, exec (.decomp 1) State.reset = .next t) ∧
    mnemonicOf (.rrd 0) = "RRD" ∧ mnemonicOf (.sinpi 0) = "SINPI" :=
  ⟨⟨_, rfl, rfl⟩, rfl, ⟨_, rfl⟩, rfl, rfl⟩

theorem witness_ScratchLayoutFollowsHostEndian : (3 < 4 * 1 ∨ 4 * 1 + 4 ≤ 3) ∧ (8 < 4 * 1 ∨ 4 * 1 + 4 ≤ 8) := by decide

/-- With a buffer, at the first and last offset and one outside; and without one. -/
theorem witness_ScratchHoldsTheLastStoredPattern :
    (∃ t, exec (.cpysgn 1 2) (bench .big 0) = .next t) ∧
    ((bench .big 0).cfg.hasScratch = true ∧ 0 < 8) ∧ ((bench .big 0).cfg.hasScratch = true ∧ 7 < 8) ∧
    ¬((bench .big 0).cfg.hasScratch = true ∧ 8 < 8) ∧ ¬(State.reset.cfg.hasScratch = true ∧ 0 < 8) :=
  ⟨⟨_, rfl⟩, by decide, by decide, by decide, by decide⟩

theorem witness_CopySignLaws :
    (0x8000000000000000#64).extractLsb' 63 1 = (0xFFF123456789ABCD#64).extractLsb' 63 1 ∧
    signOf 0xBFF0000000000000#64 = signOf 0x8000000000000000#64 ∧
    signOf 0xBFF0000000000000#64 ≠ signOf 0x0000000000000000#64 := by decide

theorem witness_OrderOfValuesIsOrderOfPatterns :
    isFinite 0x000FFFFFFFFFFFFF#64 = true ∧ isFinite 0x0010000000000000#64 = true ∧
    signOf 0x000FFFFFFFFFFFFF#64 = 0 ∧ signOf 0x0010000000000000#64 = 0 := by decide

/-- A subnormal, a normal written with a larger exponent, and a zero. -/
theorem witness_EncxAnswersTheExactPattern :
    (isFinite 0x8000000000000003#64 = true ∧ signOf 0x8000000000000003#64 = 1 ∧
      |val 0x8000000000000003#64| = ((3 : ℕ) : ℚ) * 2 ^ (-1074 : ℤ)) ∧
    (isFinite 0x3FF8000000000000#64 = true ∧ signOf 0x3FF8000000000000#64 = 0 ∧
      |val 0x3FF8000000000000#64| = ((3 : ℕ) : ℚ) * 2 ^ (-1 : ℤ)) ∧
    isFinite 0x8000000000000000#64 = true ∧ signOf 0x8000000000000000#64 = 1 ∧
      |val 0x8000000000000000#64| = ((0 : ℕ) : ℚ) * 2 ^ (7 : ℤ) := by decide +kernel

/-- The operands of every band of R124: its first and last exponent field. -/
theorem witness_FmodIsTheExactRemainder :
    isFinite 0x0000000000000000#64 = true ∧ isFinite 0xBFFFFFFFFFFFFFFF#64 = true ∧
    isFinite 0x4000000000000001#64 = true ∧ isFinite 0xC33FFFFFFFFFFFFF#64 = true ∧
    isFinite 0x4340000000000000#64 = true ∧ isFinite 0x7FEFFFFFFFFFFFFF#64 = true := by decide

/-- A finite operand in each row of the table, at a boundary of it. The witness of every statement on a finite operand. -/
theorem witness_CaseIsTheFirstMatchingRow :
    (isFinite 0x8000000000000000#64 = true ∧ caseOf (fabs (fmod2 0x8000000000000000#64)) = .case0) ∧
    (isFinite 0xBFF0000000000000#64 = true ∧ caseOf (fabs (fmod2 0xBFF0000000000000#64)) = .case0) ∧
    (isFinite 0x0000000000000001#64 = true ∧ caseOf (fabs (fmod2 0x0000000000000001#64)) = .case1) ∧
    (isFinite 0x3FD0000000000000#64 = true ∧ caseOf (fabs (fmod2 0x3FD0000000000000#64)) = .case2) ∧
    (isFinite 0xBFE8000000000000#64 = true ∧ caseOf (fabs (fmod2 0xBFE8000000000000#64)) = .case3) ∧
    (isFinite 0x3FF0000000000001#64 = true ∧ caseOf (fabs (fmod2 0x3FF0000000000001#64)) = .case3) ∧
    (isFinite 0x3FF4000000000000#64 = true ∧ caseOf (fabs (fmod2 0x3FF4000000000000#64)) = .case4) ∧
    (isFinite 0xBFFC000000000000#64 = true ∧ caseOf (fabs (fmod2 0xBFFC000000000000#64)) = .case5) := by
  decide +kernel

/-- The zero argument of case 2, of case 4, and a non-zero one. -/
theorem witness_TrigArgumentIsTheExactDifference :
    (isFinite 0x4004000000000000#64 = true ∧ isZero (trigArg .case2 c05 c05) = true ∧
      fabs (fmod2 0x4004000000000000#64) = c05 ∧ caseOf c05 = .case2) ∧
    (isFinite 0xBFF8000000000000#64 = true ∧ fabs (fmod2 0xBFF8000000000000#64) = c15 ∧ caseOf c15 = .case4) ∧
    isZero (trigArg .case3 c075 c075) = false ∧ caseOf c075 = .case3 := by decide +kernel

theorem witness_TrigArgumentIsAtMostAQuarter :
    isFinite 0x3FE8000000000000#64 = true ∧ caseOf (fabs (fmod2 0x3FE8000000000000#64)) ≠ .case0 := by decide +kernel

/-- The largest argument, a subnormal one and a zero. -/
theorem witness_MulPiIsTheNearestProduct :
    (isFinite 0xBFD0000000000000#64 = true ∧ |val 0xBFD0000000000000#64| ≤ 1 / 4) ∧
    (isFinite 0x0000000000000001#64 = true ∧ |val 0x0000000000000001#64| ≤ 1 / 4) ∧
    (isFinite 0x8000000000000000#64 = true ∧ |val 0x8000000000000000#64| ≤ 1 / 4) ∧
    isFinite 0xFFEFFFFFFFFFFFFF#64 = true := by decide +kernel

theorem witness_MulPiIsOdd :
    (isFinite 0x8000000000000000#64 = true ∧ isZero 0x8000000000000000#64 = true) ∧
    isFinite 0x7FEFFFFFFFFFFFFF#64 = true ∧ isZero 0x7FEFFFFFFFFFFFFF#64 = false := by decide

theorem witness_TrigRequestIsBounded :
    isFinite 0x3FFC000000000000#64 = true ∧
    mulPi (trigArg (caseOf (fabs (fmod2 0x3FFC000000000000#64))) (fmod2 0x3FFC000000000000#64)
      (fabs (fmod2 0x3FFC000000000000#64))) = 0xBFE921FB54442D18#64 := by decide +kernel

theorem witness_RrdClassifiesAndDispatches :
    isNaN 0x7FF0000000000001#64 = true ∧ isNaN 0xFFFFFFFFFFFFFFFF#64 = true ∧ isInf 0x7FF0000000000000#64 = true ∧
    isInf 0xFFF0000000000000#64 = true ∧ isFinite 0x7FEFFFFFFFFFFFFF#64 = true := by decide

/-- The clause with a trig request, with the trig unit attached (`State.reset`) and not (the bench); the other clauses are
those of `witness_RrdClassifiesAndDispatches` and `witness_CaseIsTheFirstMatchingRow`. -/
theorem witness_SinpiAnswersThroughTheTrigPort :
    isFinite 0x3FE0000000000000#64 = true ∧ Sel.case2 = caseOf (fabs (fmod2 0x3FE0000000000000#64)) ∧
    Sel.case2 ≠ .case0 ∧ (0#64 : F64) = mulPi (trigArg .case2 (fmod2 0x3FE0000000000000#64)
      (fabs (fmod2 0x3FE0000000000000#64))) ∧
    (9#64 : F64) = (if (bench .little 9).cfg.trigAttached then
      (if primOf .case2 = .sin then Config.sin64 0#64 else Config.cos64 0#64) else (bench .little 9).inp.tp) ∧
    Config.cos64 0#64 = (if State.reset.cfg.trigAttached then
      (if primOf .case2 = .sin then Config.sin64 0#64 else Config.cos64 0#64) else State.reset.inp.tp) :=
  ⟨by decide, by decide +kernel, by decide, by decide +kernel, rfl, rfl⟩

theorem witness_SinpiComputesTheRowsOfTheTable :
    isFinite 0x4059080000000000#64 = true ∧ State.reset.cfg.trigAttached = true ∧
    fmod2 0x4059080000000000#64 = 0x3FC0000000000000#64 ∧ fabs 0x3FC0000000000000#64 = 0x3FC0000000000000#64 := by
  decide +kernel

theorem witness_SinpiOfAnIntegerIsASignedZero :
    isFinite 0xC330000000000001#64 = true ∧ 1075 ≤ (expo 0xC330000000000001#64).toNat ∧
    (∃ n : ℤ, val 0xC330000000000001#64 = n) ∧ isFinite 0xBFF0000000000000#64 = true ∧
    ∃ n : ℤ, val 0xBFF0000000000000#64 = n :=
  ⟨by decide, by decide, ⟨-4503599627370497, by decide +kernel⟩, by decide, ⟨-1, by decide +kernel⟩⟩

/-- The operands of `witness_CaseIsTheFirstMatchingRow` meet every clause; here one of the sine cases with the attached
trig unit. -/
theorem witness_DispatcherIsOdd :
    isFinite 0xBFEC000000000000#64 = true ∧ fmod2 0xBFEC000000000000#64 = 0xBFEC000000000000#64 ∧
    fabs 0xBFEC000000000000#64 = 0x3FEC000000000000#64 ∧ caseOf 0x3FEC000000000000#64 = .case3 ∧
    trigArg .case3 0xBFEC000000000000#64 0x3FEC000000000000#64 = 0xBFC0000000000000#64 ∧
    mulPi 0xBFC0000000000000#64 = 0xBFD921FB54442D18#64 ∧ State.reset.cfg.trigAttached = true := by decide +kernel

/-- 0.125 and 100.125 (95_test_vectors.md, section 1.2). -/
theorem witness_SameSignPeriodIsBitExact :
    isFinite 0x3FC0000000000000#64 = true ∧ isFinite 0x4059080000000000#64 = true ∧
    signOf 0x3FC0000000000000#64 = signOf 0x4059080000000000#64 ∧
    val 0x4059080000000000#64 = val 0x3FC0000000000000#64 + 2 * ((50 : ℤ) : ℚ) := by decide +kernel

/-- A `SINPI` whose answer 1.0 is in range, with a request; and an integer, with none. -/
theorem witness_SinpiIsInRangeWhenTheTrigAnswerIs :
    isFinite 0x3FE0000000000000#64 = true ∧
    ((nextOf (exec (.sinpi 0x3FE0000000000000#64) (bench .little 0x3FF0000000000000#64))).map fun t =>
      (t.trig.treq, t.inp.tp)) = some (true, 0x3FF0000000000000#64) ∧
    isFinite 0x3FF0000000000000#64 = true ∧ |val 0x3FF0000000000000#64| ≤ 1 ∧
    ((nextOf (exec (.sinpi 0x3FF0000000000000#64) (bench .little 0))).map fun t => t.trig.treq) = some false := by
  decide +kernel

/-- A transaction with a sine request and one with a cosine request to an attached trig unit. -/
theorem witness_TrigRequestOnlyFromSinpi :
    ((nextOf (step (State.reset.withFetchWord 136 0x53FC00000000000000000000000000000))).map fun t =>
      (t.trig.treq, t.trig.tprim, t.cfg.trigAttached)) = some (true, .sin, true) ∧
    ((nextOf (step (State.reset.withFetchWord 136 0x53FE00000000000000000000000000000))).map fun t =>
      (t.trig.treq, t.trig.tprim, t.cfg.trigAttached)) = some (true, .cos, true) := by decide +kernel

theorem witness_WithoutATrigUnitTheWireIsTaken :
    isFinite 0x3FFC000000000000#64 = true ∧ (bench .big 7).cfg.trigAttached = false ∧
    caseOf (fabs (fmod2 0x3FFC000000000000#64)) ≠ .case0 ∧
    ((nextOf (step ((bench .big 7).present { req := { op := 5, a := 0, b := 0 }, tp := 7 }))).map fun t =>
      t.trig.treq) = some false := by decide +kernel

/-- Infinities and NaNs on the operand port of `RRD` and `SINPI`, through a step (the hypotheses of the statements on
exceptions). -/
theorem witness_exceptions :
    ((nextOf (step (presented 5 0xFFF0000000000000#64 0 0))).map fun t => t.rsp.status) = some .invalidArg ∧
    ((nextOf (step (presented 5 0x7FF0000000000001#64 0 0))).map fun t => t.rsp.status) = some .ok ∧
    ((nextOf (step (presented 4 0xFFF8000000000000#64 0 0))).map fun t => t.rsp.status) = some .ok ∧
    isNaN (fetch (presented 5 0x7FF0000000000001#64 0 0)).inp.req.a = true ∧
    (fetch (presented 5 0x7FF0000000000001#64 0 0)).inp.req.op = 5 ∧
    isNaN (fetch (presented 4 0xFFF8000000000000#64 0 0)).inp.req.a = true ∧
    (fetch (presented 4 0xFFF8000000000000#64 0 0)).inp.req.op = 4 := by decide

theorem witness_ReservedCodeRaisesIllegalOp :
    (fetch (presented 6 1 2 3)).inp.req.op = 6 ∧ (fetch (presented 7 1 2 3)).inp.req.op = 7 := by decide

theorem witness_AFaultHasNoEffectButItsResponse :
    ∃ t, step (presented 7 1 2 3) = .next t ∧ t.rsp.status ≠ .ok ∧ t.pending = [] := ⟨_, rfl, by decide, rfl⟩

theorem witness_ARepeatedRequestFaultsAgain :
    ∃ t, step (presented 5 0x7FF0000000000000#64 0 0) = .next t ∧ t.rsp.status ≠ .ok ∧ t.pending = [] :=
  ⟨_, rfl, by decide, rfl⟩

/-- Each operation code of the statement, with status `OK`. -/
theorem witness_UnassignedFieldsAreZero :
    ∀ op : BitVec 3, op = 0 ∨ op = 1 ∨ op = 2 ∨ op = 3 ∨ op = 4 ∨ op = 5 →
      (fetch (presented op 1 2 3)).inp.req.op = op ∧
      ((nextOf (step (presented op 1 2 3))).map fun t => t.rsp.status) = some .ok := by decide +kernel

theorem witness_AssemblerWritesCanonicalRequests :
    assemble [] (.compose ['y'] (.lit ⟨64, 0xFFFFFFFF3FF00000#64⟩) (.lit ⟨32, 1#32⟩)) =
      some (['y'], { op := 1, a := 0x3FF00000#64, b := 1 }) ∧
    assemble [] (.raw ['e'] 7 0x1234#64 0) = some (['e'], { op := 7, a := 0x1234#64, b := 0 }) := by decide

theorem witness_ScriptStopsAtAnUnacknowledgedFault :
    assemble [] (.raw ['e'] 7 0x1234#64 0) = some (['e'], { op := 7, a := 0x1234#64, b := 0 }) ∧
    acknowledges ['e'] [] = false ∧ acknowledges ['e'] [.expect ['e'] .status (.lit ⟨64, 2#64⟩)] = true := by decide

end Sys2Proof.Tests
end

section
/-! SUPPORT. 00_scope.md: the classes of a pattern, the order and the exactness of its value, the constants, and the request
a step performs. -/

namespace Sys2Proof.Machine

/-! ## Classes (R15) -/

theorem isInf_iff {x : F64} : isInf x = true ↔ expo x = 0x7FF#11 ∧ frac x = 0 := by simp [isInf]

/-- The two patterns R15 names are the two signs of the same fields. -/
theorem isInf_iff_pattern {x : F64} : isInf x = true ↔ x = 0x7FF0000000000000#64 ∨ x = 0xFFF0000000000000#64 := by
  constructor
  · intro h
    obtain ⟨he, hf⟩ := isInf_iff.mp h
    rcases signOf_cases x with hs | hs
    · exact .inl (f64_ext hs he hf)
    · exact .inr (f64_ext hs he hf)
  · rintro (rfl | rfl) <;> decide

/-- Settles O29: the exponent field separates the finite patterns from the others, the fraction field the NaNs from the
infinities. -/
theorem classesAreExclusive : Obligations.ClassesAreExclusive := by
  intro x
  have hclass : (isNaN x || isInf x || isFinite x) = true ∧ (isNaN x && isInf x) = false ∧
      (isNaN x && isFinite x) = false ∧ (isInf x && isFinite x) = false := by
    by_cases he : expo x = 0x7FF#11
    · by_cases hf : frac x = 0#52 <;> simp [isNaN, isInf, isFinite, he, hf]
    · simp [isNaN, isInf, isFinite, he]
  obtain ⟨hone, hni, hnf, hif⟩ := hclass
  exact ⟨hone, hni, hnf, hif, isInf_iff_pattern⟩

/-! ## Values (R16, R17) -/

/-- The bits below the sign, as a number: exponent field above fraction field. -/
theorem toNat_magBits (x : F64) : (magBits x).toNat = (expo x).toNat * 2 ^ 52 + (frac x).toNat := by
  simp only [magBits, expo, frac, BitVec.extractLsb'_toNat, Nat.shiftRight_eq_div_pow]
  omega

theorem sig_of_subnormal {x : F64} (h : (expo x).toNat = 0) : sig x = ((frac x).toNat, -1074) := by
  rw [sig, if_pos h]

theorem sig_of_normal {x : F64} (h : (expo x).toNat ≠ 0) :
    sig x = (2 ^ 52 + (frac x).toNat, ((expo x).toNat : ℤ) - 1075) := by
  rw [sig, if_neg h]

/-- A value lies below the power of 2 that the next exponent field stands for. -/
theorem abs_val_lt (x : F64) : |val x| < 2 ^ ((expo x).toNat - 1022 : ℤ) := by
  have hf : ((frac x).toNat : ℚ) < 2 ^ (52 : ℕ) := mod_cast (frac x).isLt
  by_cases h : (expo x).toNat = 0
  · calc |val x| = (frac x).toNat * 2 ^ (-1074 : ℤ) := by rw [abs_val, sig_of_subnormal h]
      _ < 2 ^ (52 : ℕ) * 2 ^ (-1074 : ℤ) := by gcongr
      _ = 2 ^ ((expo x).toNat - 1022 : ℤ) := by rw [h, ← zpow_natCast, ← zpow_add₀ two_ne_zero]; rfl
  · calc |val x| = (2 ^ (52 : ℕ) + (frac x).toNat) * 2 ^ ((expo x).toNat - 1075 : ℤ) := by
          rw [abs_val, sig_of_normal h]; push_cast; rfl
      _ < 2 ^ (53 : ℕ) * 2 ^ ((expo x).toNat - 1075 : ℤ) := by gcongr; linarith
      _ = 2 ^ ((expo x).toNat - 1022 : ℤ) := by
          rw [← zpow_natCast, ← zpow_add₀ two_ne_zero]; congr 1; push_cast; ring

/-- A normal value is at least the power of 2 its exponent field stands for. -/
theorem le_abs_val {x : F64} (h : (expo x).toNat ≠ 0) : (2 : ℚ) ^ ((expo x).toNat - 1023 : ℤ) ≤ |val x| := by
  calc (2 : ℚ) ^ ((expo x).toNat - 1023 : ℤ) = 2 ^ (52 : ℕ) * 2 ^ ((expo x).toNat - 1075 : ℤ) := by
        rw [← zpow_natCast, ← zpow_add₀ two_ne_zero]; congr 1; push_cast; ring
    _ ≤ (2 ^ (52 : ℕ) + (frac x).toNat) * 2 ^ ((expo x).toNat - 1075 : ℤ) := by gcongr; simp
    _ = |val x| := by rw [abs_val, sig_of_normal h]; push_cast; rfl

/-- Within one exponent field the fraction decides. -/
theorem abs_val_lt_of_frac_lt {a b : F64} (he : expo a = expo b) (hf : (frac a).toNat < (frac b).toNat) :
    |val a| < |val b| := by
  have hexp : (sig a).2 = (sig b).2 := by simp only [sig, he]; split <;> rfl
  have hsig : (sig a).1 < (sig b).1 := by simp only [sig, he]; split <;> simpa using hf
  rw [abs_val, abs_val, hexp]
  gcongr

/-- The order of the magnitudes is the order of the patterns below the sign (R17): a larger exponent field wins, then a
larger fraction. -/
theorem abs_val_lt_of_magBits_lt {a b : F64} (h : magBits a < magBits b) : |val a| < |val b| := by
  have hlt : (expo a).toNat * 2 ^ 52 + (frac a).toNat < (expo b).toNat * 2 ^ 52 + (frac b).toNat := by
    simpa only [BitVec.lt_def, toNat_magBits] using h
  have hfa := (frac a).isLt
  have hfb := (frac b).isLt
  by_cases he : (expo a).toNat = (expo b).toNat
  · exact abs_val_lt_of_frac_lt (BitVec.eq_of_toNat_eq he) (by omega)
  · have he' : (expo a).toNat + 1 ≤ (expo b).toNat := by omega
    calc |val a| < 2 ^ ((expo a).toNat - 1022 : ℤ) := abs_val_lt a
      _ ≤ 2 ^ ((expo b).toNat - 1023 : ℤ) := zpow_le_zpow_right₀ one_le_two (by omega)
      _ ≤ |val b| := le_abs_val (by omega)

theorem abs_val_eq_of_magBits_eq {a b : F64} (h : magBits a = magBits b) : |val a| = |val b| := by
  rw [← val_fabs, ← val_fabs, fabs, fabs, h]

theorem abs_val_le_of_magBits_le {a b : F64} (h : magBits a ≤ magBits b) : |val a| ≤ |val b| := by
  rcases Nat.lt_or_eq_of_le (BitVec.le_def.mp h) with hlt | heq
  · exact (abs_val_lt_of_magBits_lt (BitVec.lt_def.mpr hlt)).le
  · exact (abs_val_eq_of_magBits_eq (BitVec.eq_of_toNat_eq heq)).le

/-- The magnitudes of the values compare as the patterns below the sign do (R17). -/
theorem abs_val_lt_iff {a b : F64} : |val a| < |val b| ↔ magBits a < magBits b :=
  ⟨fun h => BitVec.not_le.mp fun hle => h.not_ge (abs_val_le_of_magBits_le hle), abs_val_lt_of_magBits_lt⟩

theorem abs_val_eq_iff {a b : F64} : |val a| = |val b| ↔ magBits a = magBits b := by
  refine ⟨fun h => ?_, abs_val_eq_of_magBits_eq⟩
  have hab : ¬ magBits a < magBits b := fun hlt => (abs_val_lt_iff.mpr hlt).ne h
  have hba : ¬ magBits b < magBits a := fun hlt => (abs_val_lt_iff.mpr hlt).ne' h
  exact BitVec.le_antisymm (BitVec.not_lt.mp hba) (BitVec.not_lt.mp hab)

/-- A pattern is its sign and the bits below it. -/
theorem eq_of_signOf_magBits {a b : F64} (hs : signOf a = signOf b) (hm : magBits a = magBits b) : a = b := by
  have hsum := congrArg BitVec.toNat hm
  rw [toNat_magBits, toNat_magBits] at hsum
  have hfa := (frac a).isLt
  have hfb := (frac b).isLt
  exact f64_ext hs (BitVec.eq_of_toNat_eq (by omega)) (BitVec.eq_of_toNat_eq (by omega))

theorem abs_val_of_sign_zero {x : F64} (h : signOf x = 0) : |val x| = val x := by
  rw [abs_val, val_of_sign_zero h]

/-- Settles O30: with sign 0 a value is its magnitude, and magnitudes are ordered as the patterns below the sign. -/
theorem orderOfValuesIsOrderOfPatterns : Obligations.OrderOfValuesIsOrderOfPatterns := by
  intro a b _ _ ha hb
  rw [← abs_val_of_sign_zero ha, ← abs_val_of_sign_zero hb]
  refine ⟨abs_val_lt_iff, fun h => ?_, fun h => by rw [h]⟩
  exact eq_of_signOf_magBits (ha.trans hb.symm) (abs_val_eq_iff.mp h)

/-! ## The exact pattern (R21) -/

theorem sig_eq_zero_iff {x : F64} : (sig x).1 = 0 ↔ val x = 0 := by
  rw [← abs_eq_zero, abs_val]; simp [zpow_ne_zero]

/-- A pattern is the packing of its own significand. -/
theorem packSig_sig (x : F64) : packSig (signOf x) (sig x).1 (sig x).2 = x := by
  have hf := (frac x).isLt
  by_cases h : (expo x).toNat = 0
  · rw [sig_of_subnormal h, packSig, if_neg (by dsimp only; omega)]
    refine f64_ext (signOf_packF64 _ _ _) ?_ ?_
    · rw [expo_packF64]; exact (BitVec.eq_of_toNat_eq h).symm
    · simp
  · rw [sig_of_normal h, packSig, if_pos (by dsimp only; omega)]
    refine f64_ext (signOf_packF64 _ _ _) ?_ ?_
    · simp
    · rw [frac_packF64]
      apply BitVec.eq_of_toNat_eq
      rw [BitVec.toNat_ofNat]
      omega

/-- The zeros are the two patterns of value 0. -/
theorem eq_zeroOf_of_val_eq_zero {x : F64} (h : val x = 0) : x = zeroOf (signOf x) := by
  refine eq_of_signOf_magBits (signOf_zeroOf _).symm (abs_val_eq_iff.mp ?_)
  rw [h, abs_val, sig_of_subnormal (by simp)]; simp

/-- The bit length of a significand and its exponent are bounded by the value alone. -/
theorem bitLen_add_le {n m : Nat} {q e : ℤ} (hn : n ≠ 0) (h : (n : ℚ) * 2 ^ q = m * 2 ^ e) :
    bitLen n + q ≤ bitLen m + e := by
  have hpos := bitLen_pos hn
  have hlow : (2 : ℚ) ^ (bitLen n - 1) ≤ n := mod_cast two_pow_bitLen_le hn
  have hhigh : (m : ℚ) < 2 ^ bitLen m := mod_cast lt_two_pow_bitLen m
  have hlt : (2 : ℚ) ^ ((bitLen n - 1 : ℕ) + q) < 2 ^ (bitLen m + e) := by
    rw [zpow_add₀ two_ne_zero, zpow_add₀ two_ne_zero, zpow_natCast, zpow_natCast]
    calc (2 : ℚ) ^ (bitLen n - 1) * 2 ^ q ≤ n * 2 ^ q := by gcongr
      _ = m * 2 ^ e := h
      _ < 2 ^ bitLen m * 2 ^ e := by gcongr
  have := (zpow_lt_zpow_iff_right₀ (one_lt_two (α := ℚ))).mp hlt
  omega

/-- Two ways to write one value agree on the least exponent it can be brought to. -/
theorem targetExp_congr {n m : Nat} {q e : ℤ} (hn : n ≠ 0) (hm : m ≠ 0) (h : (n : ℚ) * 2 ^ q = m * 2 ^ e) :
    targetExp (bitLen n) q = targetExp (bitLen m) e := by
  have hle := bitLen_add_le hn h
  have hge := bitLen_add_le hm h.symm
  unfold targetExp
  congr 1
  omega

/-- A pattern's own exponent is the least one: it has 53 bits, or it is at the least exponent with fewer. -/
theorem targetExp_sig (x : F64) : targetExp (bitLen (sig x).1) (sig x).2 = (sig x).2 := by
  have hlen : bitLen (sig x).1 ≤ 53 := bitLen_le (sig_lt x)
  by_cases h : (expo x).toNat = 0
  · rw [sig_of_subnormal h] at hlen ⊢
    exact max_eq_right (by dsimp only at hlen ⊢; omega)
  · have h53 : bitLen (sig x).1 = 53 := by
      have hge : 2 ^ 52 ≤ (sig x).1 := by rw [sig_of_normal h]; exact Nat.le_add_right _ _
      have := Nat.pow_lt_pow_iff_right (a := 2) (by omega) |>.mp (hge.trans_lt (lt_two_pow_bitLen _))
      omega
    have := le_sig_exp x
    rw [h53, targetExp]
    omega

/-- Bringing a significand to an exponent where the value has one gives that one. -/
theorem shiftNat_eq {n m : Nat} {q e : ℤ} (h : (n : ℚ) * 2 ^ q = m * 2 ^ e) : shiftNat n (q - e) = m := by
  have hn : (n : ℚ) * 2 ^ (q - e) = m := by
    rw [zpow_sub₀ two_ne_zero, ← mul_div_assoc, h, mul_div_cancel_right₀ _ (zpow_ne_zero _ two_ne_zero)]
  unfold shiftNat
  split
  case isTrue hk =>
    lift q - e to ℕ using hk with k
    exact_mod_cast hn
  case isFalse hk =>
    have hneg : 0 ≤ -(q - e) := by omega
    rw [← neg_neg (q - e)] at hn
    lift -(q - e) to ℕ using hneg with k
    have hmul : n = m * 2 ^ k := by
      rw [zpow_neg, zpow_natCast, ← div_eq_mul_inv, div_eq_iff (by positivity)] at hn
      exact_mod_cast hn
    rw [hmul, Int.toNat_natCast, Nat.mul_div_cancel _ (by positivity)]

/-- `encx` inverts `sig`: it answers every pattern from any way to write its magnitude. -/
theorem encx_eq {y : F64} {n : Nat} {q : ℤ} (h : |val y| = (n : ℚ) * 2 ^ q) : encx (signOf y) n q = y := by
  unfold encx
  split
  case isTrue hn => exact (eq_zeroOf_of_val_eq_zero (by simpa [hn] using h)).symm
  case isFalse hn =>
    have hval : (n : ℚ) * 2 ^ q = (sig y).1 * 2 ^ (sig y).2 := h.symm.trans (abs_val y)
    have hm : (sig y).1 ≠ 0 := by
      rw [Ne, sig_eq_zero_iff, ← abs_eq_zero, h]; positivity
    have he : targetExp (bitLen n) q = (sig y).2 := (targetExp_congr hn hm hval).trans (targetExp_sig y)
    simp only [he, shiftNat_eq hval, packSig_sig]

/-- Settles O31: zeros apart, the target exponent of the written magnitude is the pattern's own, the shift brings the
significand to it, and packing gives the pattern back. -/
theorem encxAnswersTheExactPattern : Obligations.EncxAnswersTheExactPattern := by
  rintro _ n q y _ rfl h
  exact encx_eq h

/-! ## The constants (R7, R18) -/

theorem val_of_sig {x : F64} {m : Nat} {e : ℤ} (hs : signOf x = 0) (h : sig x = (m, e)) : val x = m * 2 ^ e := by
  rw [val_of_sign_zero hs, h]

@[simp] theorem val_c0 : val c0 = 0 := by
  rw [val_of_sig (m := 0) (e := -1074) rfl rfl]; norm_num
@[simp] theorem val_c025 : val c025 = 1 / 4 := by
  rw [val_of_sig (m := 2 ^ 52) (e := -54) rfl rfl]; norm_num
@[simp] theorem val_c05 : val c05 = 1 / 2 := by
  rw [val_of_sig (m := 2 ^ 52) (e := -53) rfl rfl]; norm_num
@[simp] theorem val_c075 : val c075 = 3 / 4 := by
  rw [val_of_sig (m := 3 * 2 ^ 51) (e := -53) rfl rfl]; norm_num
@[simp] theorem val_c1 : val c1 = 1 := by
  rw [val_of_sig (m := 2 ^ 52) (e := -52) rfl rfl]; norm_num
@[simp] theorem val_c125 : val c125 = 5 / 4 := by
  rw [val_of_sig (m := 5 * 2 ^ 50) (e := -52) rfl rfl]; norm_num
@[simp] theorem val_c15 : val c15 = 3 / 2 := by
  rw [val_of_sig (m := 3 * 2 ^ 51) (e := -52) rfl rfl]; norm_num
@[simp] theorem val_c175 : val c175 = 7 / 4 := by
  rw [val_of_sig (m := 7 * 2 ^ 50) (e := -52) rfl rfl]; norm_num
@[simp] theorem val_c2 : val c2 = 2 := by
  rw [val_of_sig (m := 2 ^ 52) (e := -51) rfl rfl]; norm_num
@[simp] theorem val_cMinus1 : val cMinus1 = -1 := by
  rw [show cMinus1 = fneg c1 from rfl, val_fneg, val_c1]
theorem val_pi64 : val pi64 = (piSig : ℚ) * 2 ^ (-51 : ℤ) := val_of_sig rfl rfl

/-- Settles O32: the value of each constant from its significand and exponent. -/
theorem constantsHaveTheirValues : Obligations.ConstantsHaveTheirValues :=
  ⟨val_c0, val_c025, val_c05, val_c075, val_c1, val_c125, val_c15, val_c175, val_c2, val_cMinus1, val_pi64, by decide⟩

/-! ## The request a step performs (R13) -/

theorem step_of_decode_instr {s : State} {i : Instr} (h : decode (fetch s).inp.req = .instr i) :
    step s = exec i (fetch s) := by
  simp only [step, h]

/-- Settles O7: `step` dispatches on the decoded request, and `fetch` either leaves the state or takes the next inputs. -/
theorem stepPerformsTheDecodedRequest : Obligations.StepPerformsTheDecodedRequest :=
  ⟨fun _ _ => step_of_decode_instr, fetch_of_empty, fun s _ _ => fetch_of_cons s⟩

/-- A number that decodes to an instruction is, as a request, one that decodes to it. -/
theorem decode_unpack_of_decodeTableWord {nbits w : Nat} {i : Instr} (h : decodeTableWord nbits w = some i) :
    decode (Request.unpack (BitVec.ofNat 131 (w % 2 ^ nbits))) = .instr i := by
  unfold decodeTableWord decodeBits at h
  split at h
  case isTrue =>
    split at h
    case h_1 j hj => rw [hj, Option.some.inj h]
    case h_2 => cases h
  case isFalse => cases h

theorem step_withFetchWord {s : State} {nbits w : Nat} {i : Instr} (h : decodeTableWord nbits w = some i) :
    step (s.withFetchWord nbits w) = exec i (s.withFetchWord nbits w) :=
  step_of_decode_instr (decode_unpack_of_decodeTableWord h)

/-- Settles O8: placing a word writes the request ports and the pending list only. -/
theorem aPlacedWordIsPerformedNext : Obligations.APlacedWordIsPerformedNext :=
  fun _ _ _ h => ⟨step_withFetchWord h, rfl, rfl, rfl⟩

end Sys2Proof.Machine
end

section
/-! SUPPORT. 10_state.md: the machine with the scratch buffer is the stateless unit of `Safety.lean`. Said once for
`exec` and `step`; the invariant, the frame and the independence of earlier transactions follow. -/

namespace Sys2Proof.Machine

/-! ## The stateless unit's answer as a next state (R42, R55) -/

/-- `TP` once a transaction is over: the answer to the request on the trig port, or the value presented. -/
def tpAfter (p : Config.Params) (o : TrigOut) (tp : F64) : F64 := if o.treq then trigAnswer p o.tprim o.tu tp else tp

/-- The machine `s` with the stateless unit's answer to `q` on its ports and the content `m` in its buffer. -/
def State.answer (s : State) (q : Request) (m : Memory) : State :=
  ((s.withTp (tpAfter s.cfg (unitTrig q) s.inp.tp)).withScr m).withOutputs
    (unitResponse q (tpAfter s.cfg (unitTrig q) s.inp.tp)) (unitTrig q)

/-- The buffer's content once an operation is over (20_memory.md R74). -/
def scrAfter (p : Config.Params) (m : Memory) : Instr → Memory
  | .decomp x => (scrWords p m x).2
  | .compose high low => (scrFromWords p m high low).2
  | .hiword x => (scrHighWord p m x).2
  | .cpysgn mag sgn => (scrCopySign p m mag sgn).2
  | .rrd _ => m
  | .sinpi _ => m

@[simp] theorem State.withScr_self (s : State) : s.withScr s.scr = s := rfl
@[simp] theorem State.withTp_self (s : State) : s.withTp s.inp.tp = s := rfl

section Answer
variable (s : State) (q : Request) (m : Memory)
@[simp] theorem State.answer_cfg : (s.answer q m).cfg = s.cfg := rfl
@[simp] theorem State.answer_pending : (s.answer q m).pending = s.pending := rfl
@[simp] theorem State.answer_req : (s.answer q m).inp.req = s.inp.req := rfl
@[simp] theorem State.answer_tp : (s.answer q m).inp.tp = tpAfter s.cfg (unitTrig q) s.inp.tp := rfl
@[simp] theorem State.answer_rsp : (s.answer q m).rsp = unitResponse q (s.answer q m).inp.tp := rfl
@[simp] theorem State.answer_trig : (s.answer q m).trig = unitTrig q := rfl
@[simp] theorem State.answer_scr : (s.answer q m).scr = m := rfl
end Answer

theorem tpAfter_of_no_request {o : TrigOut} (h : o.treq = false) (p : Config.Params) (tp : F64) :
    tpAfter p o tp = tp := by
  simp [tpAfter, h]

theorem tpAfter_of_request {o : TrigOut} (h : o.treq = true) (p : Config.Params) (tp : F64) :
    tpAfter p o tp = trigAnswer p o.tprim o.tu tp := by
  simp [tpAfter, h]

/-- Of the parameters, only the attachment of a trig unit has a say in the value on `TP`. -/
theorem tpAfter_congr {p p' : Config.Params} (h : p.trigAttached = p'.trigAttached) (o : TrigOut) (tp : F64) :
    tpAfter p o tp = tpAfter p' o tp := by
  simp only [tpAfter, trigAnswer, h]

/-- The wire holding its answer is answered with what it holds. -/
theorem trigAnswer_idem (p : Config.Params) (prim : Prim) (u tp : F64) :
    trigAnswer p prim u (trigAnswer p prim u tp) = trigAnswer p prim u tp := by
  by_cases h : p.trigAttached = true
  · cases prim <;> simp [trigAnswer, h]
  · simp [trigAnswer, h]

/-- With no trig request the answer is given by `respond`. -/
theorem respond_eq_answer {q : Request} (h : unitTrig q = TrigOut.idle) (s : State) (m : Memory) :
    respond (unitResponse q s.inp.tp) (s.withScr m) = .next (s.answer q m) := by
  simp only [respond, State.answer, h, tpAfter_of_no_request (o := TrigOut.idle) rfl, State.withTp_self]

/-- With a trig request the answer is given by `exchange`, and the buffer stands. -/
theorem exchange_eq_answer {q : Request} {prim : Prim} {u : F64}
    (h : unitTrig q = { treq := true, tprim := prim, tu := u }) (s : State) :
    exchange prim u (unitResponse q) s = .next (s.answer q s.scr) := by
  simp only [exchange, State.answer, h, tpAfter_of_request (o := { treq := true, tprim := prim, tu := u }) rfl]
  rfl

/-! ## The stateless unit on the requests of each operation -/

/-- The sign of one pattern above the 63 bits of another, bit by bit (41_copysign.md R110). -/
theorem copySign_eq_slices (mag sgn : F64) : copySign mag sgn = sgn.extractLsb' 63 1 ++ mag.extractLsb' 0 63 := by
  have hmag : maskMag = (0#1 ++ BitVec.allOnes 31 : BitVec 32) := by decide
  have hsgn : maskSign = (1#1 ++ 0#31 : BitVec 32) := by decide
  apply BitVec.eq_of_getLsbD_eq
  intro i hi
  simp only [copySign, fromWords, words, highWord, hmag, hsgn, BitVec.getLsbD_append, BitVec.getLsbD_or,
    BitVec.getLsbD_and, BitVec.getLsbD_extractLsb']
  by_cases hlow : i < 32
  · simp [hlow, show i < 63 by omega]
  · by_cases hmid : i < 63
    · have hi31 : i - 32 < 31 := by omega
      simp [-BitVec.reduceAllOnes, hlow, hmid, hi31, show i - 32 < 32 by omega, show 32 + (i - 32) = i by omega]
    · obtain rfl : i = 63 := by omega
      simp

theorem isFinite_of_not_nan_inf {x : F64} (hn : isNaN x = false) (hi : isInf x = false) : isFinite x = true := by
  obtain ⟨hone, -⟩ := classesAreExclusive x
  simpa [hn, hi] using hone

theorem isFinite_eq_false_of_isNaN {x : F64} (h : isNaN x = true) : isFinite x = false := by
  obtain ⟨-, -, hnf, -⟩ := classesAreExclusive x
  simpa [h] using hnf

theorem isFinite_eq_false_of_isInf {x : F64} (h : isInf x = true) : isFinite x = false := by
  obtain ⟨-, -, -, hif, -⟩ := classesAreExclusive x
  simpa [h] using hif

theorem unitTrig_sinpi (x : F64) :
    unitTrig (encode (.sinpi x)) = if isFinite x then trigRequestOf x else TrigOut.idle := by
  simp [unitTrig, encode]

theorem unitResponse_decomp (x tp : F64) :
    unitResponse (encode (.decomp x)) tp = { Response.zero with hi := (words x).1, lo := (words x).2 } := rfl

theorem unitResponse_compose (high low : U32) (tp : F64) :
    unitResponse (encode (.compose high low)) tp = { Response.zero with y := fromWords high low } := by
  simp [unitResponse, encode, fromWords, BitVec.extractLsb'_setWidth_of_le]

theorem unitResponse_hiword (x tp : F64) :
    unitResponse (encode (.hiword x)) tp = { Response.zero with hi := highWord x } := rfl

theorem unitResponse_cpysgn (mag sgn : F64) (tp : F64) :
    unitResponse (encode (.cpysgn mag sgn)) tp = { Response.zero with y := copySign mag sgn } := by
  rw [copySign_eq_slices]; rfl

theorem trigRequestOf_of_case0 {x : F64} (h : caseOf (fabs (fmod2 x)) = .case0) : trigRequestOf x = TrigOut.idle := by
  simp only [trigRequestOf, h, if_true]

theorem trigRequestOf_of_ne_case0 {x : F64} (h : caseOf (fabs (fmod2 x)) ≠ .case0) :
    trigRequestOf x =
      { treq := true
        tprim := primOf (caseOf (fabs (fmod2 x)))
        tu := mulPi (trigArg (caseOf (fabs (fmod2 x))) (fmod2 x) (fabs (fmod2 x))) } := by
  simp only [trigRequestOf, h, if_false]

theorem unitResponse_sinpi_of_finite {x : F64} (hn : isNaN x = false) (hi : isInf x = false) (tp : F64) :
    unitResponse (encode (.sinpi x)) tp =
      { Response.zero with y := fixup (caseOf (fabs (fmod2 x))) (fmod2 x) tp } := by
  simp [unitResponse, encode, hn, hi]

/-- `RRD` is the stateless unit on its canonical request. -/
theorem execRrd_eq_answer (x : F64) (s : State) : execRrd x s = .next (s.answer (encode (.rrd x)) s.scr) := by
  rw [← respond_eq_answer rfl]
  unfold execRrd
  split
  case isTrue hn => simp [unitResponse, encode, hn]
  case isFalse hn =>
    split
    case isTrue hi => simp [unitResponse, encode, hn, hi, raise, faultResponse, excStatus]
    case isFalse hi => simp [unitResponse, encode, hn, hi]

/-- `SINPI` is the stateless unit on its canonical request: one exchange off the integers, none otherwise. -/
theorem execSinpi_eq_answer (x : F64) (s : State) : execSinpi x s = .next (s.answer (encode (.sinpi x)) s.scr) := by
  have hreq := unitTrig_sinpi x
  unfold execSinpi
  split
  case isTrue hn =>
    rw [← respond_eq_answer (by simp [hreq, isFinite_eq_false_of_isNaN hn])]
    simp [unitResponse, encode, hn]
  case isFalse hn =>
    rw [Bool.not_eq_true] at hn
    split
    case isTrue hi =>
      rw [← respond_eq_answer (by simp [hreq, isFinite_eq_false_of_isInf hi])]
      simp [unitResponse, encode, hn, hi, raise, faultResponse, excStatus]
    case isFalse hi =>
      rw [Bool.not_eq_true] at hi
      rw [isFinite_of_not_nan_inf hn hi, if_pos rfl] at hreq
      dsimp only
      split
      case isTrue h0 =>
        rw [← respond_eq_answer (hreq.trans (trigRequestOf_of_case0 h0)), unitResponse_sinpi_of_finite hn hi, h0, fixup,
          State.withScr_self]
      case isFalse h0 =>
        rw [← exchange_eq_answer (hreq.trans (trigRequestOf_of_ne_case0 h0))]
        simp only [funext (unitResponse_sinpi_of_finite hn hi)]

/-- Every operation is the stateless unit on its canonical request, whatever the buffer holds. -/
theorem exec_eq_answer (i : Instr) (s : State) :
    exec i s = .next (s.answer (encode i) (scrAfter s.cfg s.scr i)) := by
  cases i with
  | decomp x => rw [← respond_eq_answer rfl, unitResponse_decomp]; simp [exec, execDecomp, scrAfter]
  | compose high low => rw [← respond_eq_answer rfl, unitResponse_compose]; simp [exec, execCompose, scrAfter]
  | hiword x => rw [← respond_eq_answer rfl, unitResponse_hiword]; simp [exec, execHiword, scrAfter]
  | cpysgn mag sgn => rw [← respond_eq_answer rfl, unitResponse_cpysgn]; simp [exec, execCpysgn, scrAfter]
  | rrd x => exact execRrd_eq_answer x s
  | sinpi x => exact execSinpi_eq_answer x s

/-! ## The request a step performs -/

/-- Only `COMPOSE` and `CPYSGN` take a second operand (30_encoding.md R85). -/
theorem unit_ignores_b {op : BitVec 3} (h1 : op ≠ 1) (h3 : op ≠ 3) (a b b' : BitVec 64) :
    unitResponse { op := op, a := a, b := b } = unitResponse { op := op, a := a, b := b' } ∧
      unitTrig { op := op, a := a, b := b } = unitTrig { op := op, a := a, b := b' } := by
  refine ⟨funext fun tp => ?_, rfl⟩
  simp only [unitResponse]
  split
  case h_2 hop => exact absurd (BitVec.eq_of_toNat_eq hop) h1
  case h_4 hop => exact absurd (BitVec.eq_of_toNat_eq hop) h3
  all_goals rfl

/-- The unit's outputs see of a request what it decodes to. -/
theorem unit_encode_of_decode {q : Request} {i : Instr} (h : decode q = .instr i) :
    unitResponse (encode i) = unitResponse q ∧ unitTrig (encode i) = unitTrig q := by
  obtain ⟨op, a, b⟩ := q
  unfold decode at h
  split at h <;> cases h
  case h_1 hop =>
    obtain rfl : op = 0 := BitVec.eq_of_toNat_eq hop
    exact unit_ignores_b (by decide) (by decide) a 0 b
  case h_2 hop =>
    obtain rfl : op = 1 := BitVec.eq_of_toNat_eq hop
    exact ⟨funext fun tp => by rw [unitResponse_compose]; simp [unitResponse, fromWords], by simp [unitTrig, encode]⟩
  case h_3 hop =>
    obtain rfl : op = 2 := BitVec.eq_of_toNat_eq hop
    exact unit_ignores_b (by decide) (by decide) a 0 b
  case h_4 hop =>
    obtain rfl : op = 3 := BitVec.eq_of_toNat_eq hop
    exact ⟨rfl, rfl⟩
  case h_5 hop =>
    obtain rfl : op = 4 := BitVec.eq_of_toNat_eq hop
    exact unit_ignores_b (by decide) (by decide) a 0 b
  case h_6 hop =>
    obtain rfl : op = 5 := BitVec.eq_of_toNat_eq hop
    exact unit_ignores_b (by decide) (by decide) a 0 b

/-- A request with a reserved code is the stateless unit's `IllegalOp`. -/
theorem unit_of_reserved {q : Request} {op : BitVec 3} (h : decode q = .reservedOp op) (tp : F64) :
    unitResponse q tp = faultResponse .illegalOp (op.setWidth 64) ∧ unitTrig q = TrigOut.idle := by
  obtain ⟨code, a, b⟩ := q
  unfold decode at h
  split at h <;> cases h
  case h_7 =>
    obtain rfl | rfl : code = 6 ∨ code = 7 := by
      revert code; dsimp only; decide
    · exact ⟨rfl, rfl⟩
    · exact ⟨rfl, rfl⟩

/-- Every step is the stateless unit on the request it takes; the buffer stands beside it. -/
theorem step_eq_answer (s : State) : ∃ m, step s = .next ((fetch s).answer (fetch s).inp.req m) := by
  cases h : decode (fetch s).inp.req with
  | instr i =>
    obtain ⟨hrsp, htrig⟩ := unit_encode_of_decode h
    refine ⟨scrAfter (fetch s).cfg (fetch s).scr i, ?_⟩
    rw [step_of_decode_instr h, exec_eq_answer, State.answer, hrsp, htrig, State.answer]
  | reservedOp op =>
    obtain ⟨hrsp, htrig⟩ := unit_of_reserved h (fetch s).inp.tp
    refine ⟨(fetch s).scr, ?_⟩
    rw [← respond_eq_answer htrig, hrsp, State.withScr_self]
    simp only [step, h, rejectOp, raise]

theorem eq_answer_of_step {s t : State} (h : step s = .next t) : ∃ m, t = (fetch s).answer (fetch s).inp.req m := by
  obtain ⟨m, hm⟩ := step_eq_answer s
  exact ⟨m, Host.Outcome.next.inj (h.symm.trans hm)⟩

/-! ## The ports (R42, R51, R55) -/

/-- Settles O10: a step answers as the stateless unit, and `TP` then holds the value the response was made of. -/
theorem stepRefinesTheStatelessUnit : Obligations.StepRefinesTheStatelessUnit := by
  intro s t h
  obtain ⟨m, rfl⟩ := eq_answer_of_step h
  exact ⟨rfl, rfl, rfl⟩

/-! ## The invariant (R52, R185) -/

/-- With the unit's answer on the ports an attached trig unit's contract is kept: `TP` holds the answer. -/
theorem trigContract_answer (s : State) (q : Request) (m : Memory) : TrigContract (s.answer q m) := by
  intro _ hreq
  simp only [State.answer_trig] at hreq
  simp only [State.answer_trig, State.answer_tp, State.answer_cfg, tpAfter_of_request hreq, trigAnswer_idem]

/-- A step keeps the buffer's canonical form. -/
theorem step_wf_scr {s t : State} (h : step s = .next t) (hs : Memory.wf s.scr = true) : Memory.wf t.scr = true := by
  obtain ⟨_, m, _, _, rfl, hwf, _⟩ := step_transacts h
  exact hwf (by simpa using hs)

/-- Settles O11: the ports and the contract hold after every step, by what a step answers; the canonical form of the
buffer is kept by its stores. -/
theorem stepKeepsTheInvariant : Obligations.StepKeepsTheInvariant := by
  intro s t hinv h
  have hscr := step_wf_scr h hinv.scratch
  obtain ⟨m, rfl⟩ := eq_answer_of_step h
  exact ⟨⟨rfl, rfl⟩, trigContract_answer _ _ _, hscr⟩

/-- Settles O12: the zero outputs are the unit's answer to the zero request, with no trig request; nothing is listed. -/
theorem resetMeetsTheInvariant : Obligations.ResetMeetsTheInvariant where
  ports := ⟨rfl, rfl⟩
  contract := fun _ hreq => absurd hreq (by decide)
  scratch := Memory.wf_nil

/-! ## Independence of earlier transactions (R40) -/

/-- Settles O13: both machines answer as the stateless unit, from `TP` values that only the attachment could
tell apart. -/
theorem noResponseDependsOnAnEarlierTransaction : Obligations.NoResponseDependsOnAnEarlierTransaction := by
  intro s s' i hcfg
  obtain ⟨m, hm⟩ := step_eq_answer (s.present i)
  obtain ⟨m', hm'⟩ := step_eq_answer (s'.present i)
  have htp : tpAfter s.cfg (unitTrig i.req) i.tp = tpAfter s'.cfg (unitTrig i.req) i.tp := tpAfter_congr hcfg _ _
  refine ⟨_, _, hm, hm', congrArg (unitResponse i.req) htp, rfl, ?_⟩
  exact congrArg (Inputs.mk i.req) htp

/-! ## The frame of an instruction (R40, R74, R131) -/

theorem scrAfter_of_no_scratch {p : Config.Params} (h : p.hasScratch = false) (m : Memory) (i : Instr) :
    scrAfter p m i = m := by
  cases i <;> simp [scrAfter, scrCopySign, scrWords_scr, scrHighWord_scr, scrFromWords_scr, h]

theorem scrAfter_of_range_reduction {i : Instr} (h : mnemonicOf i = "RRD" ∨ mnemonicOf i = "SINPI") (p : Config.Params)
    (m : Memory) : scrAfter p m i = m := by
  cases i with
  | rrd x => rfl
  | sinpi x => rfl
  | decomp x | compose high low | hiword x | cpysgn mag sgn => simp [mnemonicOf] at h

/-- Settles O16: the answer of an instruction is written on the output ports, on `TP` and in the buffer only. -/
theorem instructionFrame : Obligations.InstructionFrame := by
  intro i s t h
  obtain rfl := Host.Outcome.next.inj (h.symm.trans (exec_eq_answer i s))
  exact ⟨rfl, rfl, rfl, fun hreq => tpAfter_of_no_request hreq _ _, fun hscr => scrAfter_of_no_scratch hscr _ _,
    fun hi => scrAfter_of_range_reduction hi _ _⟩

end Sys2Proof.Machine
end

section
/-! SUPPORT. 20_memory.md: the bytes of the scratch buffer under both byte orders, after each store and after each
operation; the parameters, and with them the responses, whatever transactions ran before. -/

namespace Sys2Proof.Machine

open Config (Endian)

/-! ## Reads of stored bytes -/

namespace Memory

/-- A store puts its `k`-th byte at its `k`-th offset. -/
theorem read_writeBytes_of_inside (m : Memory) (a : Nat) (vs : List Byte) (k : Nat) (h : k < vs.length) :
    Memory.read (Memory.writeBytes m a vs) (a + k) = vs[k] := by
  induction vs generalizing m a k with
  | nil => simp at h
  | cons v vs ih =>
    cases k with
    | zero => rw [Memory.writeBytes, read_writeBytes_of_outside _ _ _ _ (by omega)]; simp
    | succ k =>
      have hk : k < vs.length := by simpa using h
      have hak : a + (k + 1) = a + 1 + k := by omega
      rw [Memory.writeBytes, hak, ih _ _ _ hk, List.getElem_cons_succ]

/-- Storing the bytes that already stand there changes no read. -/
theorem read_writeBytes_map_read (m : Memory) (a n b : Nat) :
    Memory.read (Memory.writeBytes m a ((List.range n).map fun k => Memory.read m (a + k))) b = Memory.read m b := by
  by_cases hb : b < a ∨ a + n ≤ b
  · exact read_writeBytes_of_outside _ _ _ _ (by simpa using hb)
  · obtain ⟨k, rfl⟩ : ∃ k, b = a + k := ⟨b - a, by omega⟩
    rw [read_writeBytes_of_inside _ _ _ _ (by simp; omega)]
    simp

end Memory

/-! ## The layout of a pattern and of a word (R61) -/

theorem bytes64_getElem (e : Endian) (x : F64) (a : Nat) (h : a < (bytes64 e x).length) :
    (bytes64 e x)[a] = byteOf e x a := by
  have ha : a < 8 := by simpa using h
  cases e <;> interval_cases a <;> rfl

theorem read_memWrite64 (e : Endian) (m : Memory) (x : F64) (a : Nat) :
    (memWrite64 e m x).read a = if a < 8 then byteOf e x a else m.read a := by
  split
  case isTrue ha =>
    have h := Memory.read_writeBytes_of_inside m 0 (bytes64 e x) a (by simpa using ha)
    rwa [Nat.zero_add, bytes64_getElem] at h
  case isFalse ha => exact Memory.read_writeBytes_of_outside _ _ _ _ (by simp; omega)

theorem read_memWrite32_of_outside (e : Endian) (m : Memory) (j : Nat) (w : U32) (a : Nat)
    (h : a < 4 * j ∨ 4 * j + 4 ≤ a) : (memWrite32 e m j w).read a = m.read a :=
  Memory.read_writeBytes_of_outside _ _ _ _ (by simpa using h)

/-- Of bytes joined from the top, the lowest slice is the last one. -/
theorem slice_append_last_byte {n : Nat} (x : BitVec n) (v : Byte) : (x ++ v).extractLsb' 0 8 = v :=
  BitVec.extractLsb'_append_eq_right

/-- Of bytes joined from the top, a higher slice is one of those before the last. -/
theorem slice_append_byte {n lo : Nat} (x : BitVec n) (v : Byte) (h : 8 ≤ lo) :
    (x ++ v).extractLsb' lo 8 = x.extractLsb' (lo - 8) 8 :=
  BitVec.extractLsb'_append_eq_of_le h

/-- The bytes of a loaded pattern are the ones that stand in the buffer. -/
theorem bytes64_memRead64 (e : Endian) (m : Memory) :
    bytes64 e (memRead64 e m) = (List.range 8).map fun k => m.read (0 + k) := by
  cases e <;> simp [bytes64, memRead64, List.range_succ, slice_append_byte, slice_append_last_byte]

/-- The bytes of a loaded word are the ones that stand in the buffer. -/
theorem bytes32_memRead32 (e : Endian) (m : Memory) (j : Nat) :
    bytes32 e (memRead32 e m j) = (List.range 4).map fun k => m.read (4 * j + k) := by
  cases e <;> simp [bytes32, memRead32, List.range_succ, slice_append_byte, slice_append_last_byte]

theorem byteOf_memRead64 (e : Endian) (m : Memory) {a : Nat} (ha : a < 8) : byteOf e (memRead64 e m) a = m.read a := by
  rw [← bytes64_getElem e _ a (by simpa using ha)]
  simp [bytes64_memRead64]

/-! ## Each load is the inverse of its store (R61) -/

theorem memRead64_memWrite64 (e : Endian) (m : Memory) (x : F64) : memRead64 e (memWrite64 e m x) = x := by
  have h := join_bytes64 x
  cases e <;> simpa [memRead64, read_memWrite64, byteOf] using h

theorem memRead32_memWrite32 (e : Endian) (m : Memory) (j : Nat) (w : U32) :
    memRead32 e (memWrite32 e m j w) j = w := by
  have h := join_bytes32 w 0
  simp only [Nat.zero_add, slice_all32] at h
  cases e <;> simpa [memRead32, memWrite32, bytes32, Memory.writeBytes, Nat.add_assoc] using h

theorem read_memWrite64_memRead64 (e : Endian) (m : Memory) (a : Nat) :
    (memWrite64 e m (memRead64 e m)).read a = m.read a := by
  rw [memWrite64, bytes64_memRead64, Memory.read_writeBytes_map_read]

theorem read_memWrite32_memRead32 (e : Endian) (m : Memory) (j a : Nat) :
    (memWrite32 e m j (memRead32 e m j)).read a = m.read a := by
  rw [memWrite32, bytes32_memRead32, Memory.read_writeBytes_map_read]

/-- Settles O17: a store puts its bytes at successive offsets and leaves the others, and the bytes of what is loaded are
the bytes that stand there. -/
theorem scratchLayoutFollowsHostEndian : Obligations.ScratchLayoutFollowsHostEndian :=
  ⟨read_memWrite64, memRead64_memWrite64, read_memWrite64_memRead64, fun _ _ => rfl, fun _ _ => rfl,
    memRead32_memWrite32, read_memWrite32_of_outside, read_memWrite32_memRead32⟩

/-! ## The buffer after each operation (R74) -/

section WordFunctions
variable (p : Config.Params) (m : Memory)

theorem read_scrWords (x : F64) (a : Nat) :
    (scrWords p m x).2.read a = if p.hasScratch = true ∧ a < 8 then byteOf p.hostEndian x a else m.read a := by
  rw [scrWords_scr]
  by_cases hp : p.hasScratch = true <;> simp [hp, read_memWrite64]

theorem read_scrHighWord (x : F64) (a : Nat) :
    (scrHighWord p m x).2.read a = if p.hasScratch = true ∧ a < 8 then byteOf p.hostEndian x a else m.read a := by
  rw [scrHighWord_scr]
  by_cases hp : p.hasScratch = true <;> simp [hp, read_memWrite64]

/-- The two stores of `fromWords` fill the buffer with the bytes of the pattern it then loads. -/
theorem read_memWrite32_memWrite32 (e : Endian) (high low : U32) (a : Nat) :
    (memWrite32 e (memWrite32 e m (highIdx e) high) (lowIdx e) low).read a =
      if a < 8 then byteOf e (high ++ low) a else m.read a := by
  split
  case isTrue ha => rw [← memRead64_memWrite32_memWrite32 e m high low, byteOf_memRead64 e _ ha]
  case isFalse ha =>
    have hhigh := highIdx_le e
    have hlow := lowIdx_le e
    rw [read_memWrite32_of_outside _ _ _ _ _ (by omega), read_memWrite32_of_outside _ _ _ _ _ (by omega)]

theorem read_scrFromWords (high low : U32) (a : Nat) :
    (scrFromWords p m high low).2.read a =
      if p.hasScratch = true ∧ a < 8 then byteOf p.hostEndian (fromWords high low) a else m.read a := by
  rw [scrFromWords_scr]
  by_cases hp : p.hasScratch = true <;> simp [hp, read_memWrite32_memWrite32, fromWords]

/-- `copySign` leaves the bytes of its result: its last access is the store of `fromWords`, over the two before it. -/
theorem read_scrCopySign (mag sgn : F64) (a : Nat) :
    (scrCopySign p m mag sgn).2.read a =
      if p.hasScratch = true ∧ a < 8 then byteOf p.hostEndian (copySign mag sgn) a else m.read a := by
  simp only [scrCopySign, read_scrFromWords, read_scrHighWord, read_scrWords, scrWords_result, scrHighWord_result,
    copySign]
  split <;> rfl

end WordFunctions

/-- Settles O18: the buffer is left by the last access of the operation's word function. -/
theorem scratchHoldsTheLastStoredPattern : Obligations.ScratchHoldsTheLastStoredPattern := by
  intro i s t h a
  obtain rfl := Host.Outcome.next.inj (h.symm.trans (exec_eq_answer i s))
  rw [State.answer_scr]
  cases i with
  | decomp x => exact read_scrWords s.cfg s.scr x a
  | compose high low => exact read_scrFromWords s.cfg s.scr high low a
  | hiword x => exact read_scrHighWord s.cfg s.scr x a
  | cpysgn mag sgn =>
    dsimp only
    rw [← copySign_eq_slices]
    exact read_scrCopySign s.cfg s.scr mag sgn a
  | rrd x | sinpi x => exact (ite_self _).symm

/-! ## Parameters and earlier transactions (R64, R69) -/

/-- Settles O15: a step writes the ports, `TP`, the buffer and the list of pending inputs only. -/
theorem parametersNeverChange : Obligations.ParametersNeverChange := by
  intro s t h
  obtain ⟨m, rfl⟩ := eq_answer_of_step h
  exact fetch_cfg s

/-- What every step keeps, every run keeps. -/
theorem run_induction {M : Host.Core} {P : M.State → Prop} (hstep : ∀ s t, M.step s = .next t → P s → P t)
    {k : Nat} {s t : M.State} (h : M.run k s = .next t) (hs : P s) : P t := by
  induction k generalizing s with
  | zero => exact Host.Outcome.next.inj h ▸ hs
  | succ k ih =>
    rw [Host.Core.run] at h
    split at h
    case h_1 m hm => exact ih h (hstep s m hm hs)
    case h_2 => cases h
    case h_3 => cases h

/-- No run changes a parameter. -/
theorem run_cfg {k : Nat} {s t : State} (h : Sys2Proof.core.run k s = .next t) : t.cfg = s.cfg :=
  run_induction (M := Sys2Proof.core) (P := fun u : State => u.cfg = s.cfg)
    (fun u v huv hu => (parametersNeverChange u v huv).trans hu) h rfl

/-- Settles O14: a run keeps the parameters, and with them the answer to whatever is presented next. -/
theorem earlierTransactionsChangeNoResponse : Obligations.EarlierTransactionsChangeNoResponse :=
  fun _ s t i h => noResponseDependsOnAnEarlierTransaction t s i (congrArg Config.Params.trigAttached (run_cfg h))

end Sys2Proof.Machine
end

section
/-! SUPPORT. 30_encoding.md: the decoder and the encoder are inverse up to ignored bits, the opcode map is the decoder, what
each operation code answers, and what the assembler and a script do with a request line. -/

namespace Sys2Proof

/-! ## The packed form (R80) -/

@[simp] theorem Request.unpack_pack (q : Request) : Request.unpack q.pack = q := by
  have hop : q.pack.extractLsb' 128 3 = q.op :=
    (BitVec.extractLsb'_append_eq_of_le (by decide)).trans BitVec.extractLsb'_append_eq_left
  have ha : q.pack.extractLsb' 64 64 = q.a :=
    (BitVec.extractLsb'_append_eq_of_le (by decide)).trans BitVec.extractLsb'_append_eq_right
  have hb : q.pack.extractLsb' 0 64 = q.b := BitVec.extractLsb'_append_eq_right
  rw [Request.unpack, hop, ha, hb]

@[simp] theorem Request.pack_unpack (w : BitVec 131) : (Request.unpack w).pack = w := by
  have htop := Machine.slice_append w 64 3 64
  have hall := Machine.slice_append w 0 67 64
  simp only [Nat.reduceAdd, Nat.zero_add] at htop hall
  rw [Request.pack, Request.unpack, htop, hall, BitVec.extractLsb'_eq_self]

/-- A word stands on a 64-bit port below 32 zero bits (R90). -/
theorem setWidth_word (w : U32) : w.setWidth 64 = (0#32 ++ w : BitVec 64) := by
  rw [BitVec.setWidth_eq_append (by decide)]; rfl

theorem high_setWidth_word (w : U32) : (w.setWidth 64).extractLsb' 32 32 = 0 := by
  rw [setWidth_word]; exact BitVec.extractLsb'_append_eq_left

/-- A port whose high word is zero holds its low word, zero-extended. -/
theorem setWidth_low_of_high_zero {x : BitVec 64} (h : x.extractLsb' 32 32 = 0) :
    (x.extractLsb' 0 32).setWidth 64 = x := by
  rw [setWidth_word]
  calc (0#32 ++ x.extractLsb' 0 32 : BitVec 64)
      = x.extractLsb' 32 32 ++ x.extractLsb' 0 32 := by rw [h]; rfl
    _ = x := BitVec.extractLsb'_append_extractLsb' (w := 32) (len := 32)

/-! ## Encoding and decoding are inverse (R84, R85) -/

@[simp] theorem decode_encode (i : Instr) : decode (encode i) = .instr i := by
  cases i with
  | compose high low => simp [decode, encode, BitVec.extractLsb'_setWidth_of_le]
  | decomp x | hiword x | cpysgn mag sgn | rrd x | sinpi x => rfl

theorem legal_encode (i : Instr) : (encode i).legal = true := by cases i <;> rfl

theorem ignoredBitsZero_encode (i : Instr) : (encode i).ignoredBitsZero = true := by
  cases i with
  | compose high low => simp [encode, Request.ignoredBitsZero, high_setWidth_word]
  | decomp x | hiword x | cpysgn mag sgn | rrd x | sinpi x => rfl

theorem canonical_encode (i : Instr) : (encode i).canonical = true := by
  rw [Request.canonical, legal_encode, ignoredBitsZero_encode]; rfl

/-- A request that decodes to an instruction has that instruction's code, and is its encoding when its ignored bits are
zero. -/
theorem encode_of_decode {q : Request} {i : Instr} (h : decode q = .instr i) :
    (encode i).op = q.op ∧ (q.ignoredBitsZero = true → encode i = q) := by
  obtain ⟨op, a, b⟩ := q
  unfold decode at h
  split at h <;> cases h
  case h_1 hop =>
    obtain rfl : op = 0 := BitVec.eq_of_toNat_eq hop
    exact ⟨rfl, fun hz => congrArg (Request.mk 0 a) (eq_of_beq hz).symm⟩
  case h_2 hop =>
    obtain rfl : op = 1 := BitVec.eq_of_toNat_eq hop
    refine ⟨rfl, fun hz => ?_⟩
    obtain ⟨ha, hb⟩ := (Bool.and_eq_true _ _).mp hz
    exact congrArg₂ (Request.mk 1) (setWidth_low_of_high_zero (eq_of_beq ha)) (setWidth_low_of_high_zero (eq_of_beq hb))
  case h_3 hop =>
    obtain rfl : op = 2 := BitVec.eq_of_toNat_eq hop
    exact ⟨rfl, fun hz => congrArg (Request.mk 2 a) (eq_of_beq hz).symm⟩
  case h_4 hop =>
    obtain rfl : op = 3 := BitVec.eq_of_toNat_eq hop
    exact ⟨rfl, fun _ => rfl⟩
  case h_5 hop =>
    obtain rfl : op = 4 := BitVec.eq_of_toNat_eq hop
    exact ⟨rfl, fun hz => congrArg (Request.mk 4 a) (eq_of_beq hz).symm⟩
  case h_6 hop =>
    obtain rfl : op = 5 := BitVec.eq_of_toNat_eq hop
    exact ⟨rfl, fun hz => congrArg (Request.mk 5 a) (eq_of_beq hz).symm⟩

/-- Settles O1: packing loses no bit, and the decoder reads the operands where the encoder puts them. -/
theorem decodeOfEncodeReturnsTheInstruction : Obligations.DecodeOfEncodeReturnsTheInstruction := by
  intro i _
  rw [decodeBits, encodeBits, Request.unpack_pack]
  exact ⟨decode_encode i, canonical_encode i⟩

/-- Settles O2: the encoding has the request's code and operands, and a canonical request holds nothing else. -/
theorem encodeOfDecodeIsTheCanonicalRequest : Obligations.EncodeOfDecodeIsTheCanonicalRequest := by
  intro q i h
  obtain ⟨hop, heq⟩ := encode_of_decode h
  refine ⟨hop, canonical_encode i, decode_encode i, fun hq => heq ?_⟩
  exact ((Bool.and_eq_true _ _).mp hq).2

/-! ## The opcode map (R86, R87) -/

/-- The codes of the operations are 0 to 5. -/
theorem op_encode_ne_reserved (i : Instr) : (encode i).op ≠ 6 ∧ (encode i).op ≠ 7 := by
  have hcodes : ∀ op : BitVec 3, decide (op.toNat ≤ 5) = true → op ≠ 6 ∧ op ≠ 7 := by decide
  exact hcodes _ (legal_encode i)

/-- The decoder rejects a request under its own code, which is one of the two reserved ones. -/
theorem op_of_decode_reserved {q : Request} {op : BitVec 3} (h : decode q = .reservedOp op) :
    q.op = op ∧ (op = 6 ∨ op = 7) := by
  obtain ⟨code, a, b⟩ := q
  unfold decode at h
  split at h <;> cases h
  case h_7 => exact ⟨rfl, by revert code; dsimp only; decide⟩

theorem decode_instr_iff (q : Request) : (∃ i, decode q = .instr i) ↔ q.op ≠ 6 ∧ q.op ≠ 7 := by
  cases h : decode q with
  | instr i => simpa [(encode_of_decode h).1] using op_encode_ne_reserved i
  | reservedOp op =>
    obtain ⟨rfl, hop⟩ := op_of_decode_reserved h
    simpa [← not_or] using hop

theorem decode_reserved_iff (q : Request) : (∃ op, decode q = .reservedOp op) ↔ q.op = 6 ∨ q.op = 7 := by
  rw [← not_iff_not, not_or, ← ne_eq, ← ne_eq, ← decode_instr_iff]
  cases decode q <;> simp

/-- The mask of the opcode map leaves a packed request its code. -/
theorem and_opcodeMask (w : BitVec 131) :
    w &&& 0x700000000000000000000000000000000#131 = (Request.unpack w).op ++ 0#128 := by
  rw [← Laws.TableRow.pack_and_mask, Request.pack_unpack]

/-- The rows of the opcode map have one mask, and none has the pattern of a reserved code. -/
theorem opcodeTable_row {row : OpcodeRow} (h : row ∈ opcodeTable) :
    row.mask = 0x700000000000000000000000000000000#131 ∧ 6#3 ++ 0#128 ≠ row.pattern ∧ 7#3 ++ 0#128 ≠ row.pattern := by
  revert row; decide

/-- An instruction's own word matches its own row of the opcode map and no other. -/
theorem encodeBits_matches_row (i : Instr) : Laws.TableRow.Statement i := by
  cases i with
  | decomp x => exact Laws.TableRow.decomp x
  | compose high low => exact Laws.TableRow.compose high low
  | hiword x => exact Laws.TableRow.hiword x
  | cpysgn mag sgn => exact Laws.TableRow.cpysgn mag sgn
  | rrd x => exact Laws.TableRow.rrd x
  | sinpi x => exact Laws.TableRow.sinpi x

/-- A word matches a row of the opcode map exactly when it decodes to that row's operation. -/
theorem and_mask_eq_pattern_iff (w : BitVec 131) {row : OpcodeRow} (hrow : row ∈ opcodeTable) :
    w &&& row.mask = row.pattern ↔ ∃ i, decodeBits w = .instr i ∧ mnemonicOf i = row.mnemonic := by
  obtain ⟨hmask, h6, h7⟩ := opcodeTable_row hrow
  cases h : decodeBits w with
  | instr i =>
    have hword : w &&& row.mask = encodeBits i &&& row.mask := by
      rw [hmask, and_opcodeMask, encodeBits, Laws.TableRow.pack_and_mask, (encode_of_decode h).1]
    simpa [hword, eq_comm] using encodeBits_matches_row i row hrow
  | reservedOp op =>
    obtain ⟨hop, hcode⟩ := op_of_decode_reserved h
    rw [hmask, and_opcodeMask, hop]
    rcases hcode with rfl | rfl
    · simpa using h6
    · simpa using h7

theorem opcodeTable_getElem? {k : Nat} {row : OpcodeRow} (h : opcodeTable[k]? = some row) :
    row.mask = 7#131 <<< 128 ∧ row.pattern = BitVec.ofNat 131 k <<< 128 := by
  have hrows : ∀ j : Fin opcodeTable.length,
      opcodeTable[j].mask = 7#131 <<< 128 ∧ opcodeTable[j].pattern = BitVec.ofNat 131 j <<< 128 := by decide
  obtain ⟨hk, rfl⟩ := List.getElem?_eq_some_iff.mp h
  exact hrows ⟨k, hk⟩

/-- A word has a reserved code exactly when it matches one of the two patterns the opcode map leaves out. -/
theorem decodeBits_reserved_iff (w : BitVec 131) : (∃ op, decodeBits w = .reservedOp op) ↔
    w &&& 7#131 <<< 128 = 6#131 <<< 128 ∨ w &&& 7#131 <<< 128 = 7#131 <<< 128 := by
  have hcodes : ∀ op : BitVec 3,
      (op = 6 ∨ op = 7) ↔ (op ++ 0#128 = 6#131 <<< 128 ∨ op ++ 0#128 = 7#131 <<< 128) := by decide
  rw [decodeBits, decode_reserved_iff, hcodes, ← and_opcodeMask]
  rfl

/-- Settles O4: the mask leaves the code, which is the one of the encoded instruction or a reserved one. -/
theorem opcodeMapDecidesTheOperation : Obligations.OpcodeMapDecidesTheOperation :=
  ⟨rfl, fun _ _ => opcodeTable_getElem?, fun w _ => and_mask_eq_pattern_iff w, decodeBits_reserved_iff⟩

end Sys2Proof

namespace Sys2Proof.Machine

/-! ## What each operation code answers (R87, R93) -/

/-- The responses to a request, by its code: each is the zero response with the fields written out here assigned. -/
inductive Answers (q : Request) : Response → Prop
  | decomp (hop : q.op = 0) (hi lo : U32) : Answers q { Response.zero with hi := hi, lo := lo }
  | compose (hop : q.op = 1) (y : F64) : Answers q { Response.zero with y := y }
  | hiword (hop : q.op = 2) (hi : U32) : Answers q { Response.zero with hi := hi }
  | cpysgn (hop : q.op = 3) (y : F64) : Answers q { Response.zero with y := y }
  | rrd (hop : q.op = 4) (ha : isInf q.a = false) (cls : Cls) (sel : Sel) (prim : Prim) (r t : F64) :
    Answers q { Response.zero with cls := cls, sel := sel, prim := prim, r := r, t := t }
  | sinpi (hop : q.op = 5) (ha : isInf q.a = false) (y : F64) : Answers q { Response.zero with y := y }
  | infinite (hop : q.op = 4 ∨ q.op = 5) (ha : isInf q.a = true) : Answers q (faultResponse .invalidArgument q.a)
  | reserved (hop : q.op = 6 ∨ q.op = 7) : Answers q (faultResponse .illegalOp (q.op.setWidth 64))

theorem isInf_eq_false_of_isNaN {x : F64} (h : isNaN x = true) : isInf x = false := by
  obtain ⟨-, hni, -⟩ := classesAreExclusive x
  simpa [h] using hni

/-- The stateless unit's responses. -/
theorem unitResponse_answers (q : Request) (tp : F64) : Answers q (unitResponse q tp) := by
  unfold unitResponse
  split
  case h_1 hop => exact .decomp (BitVec.eq_of_toNat_eq hop) _ _
  case h_2 hop => exact .compose (BitVec.eq_of_toNat_eq hop) _
  case h_3 hop => exact .hiword (BitVec.eq_of_toNat_eq hop) _
  case h_4 hop => exact .cpysgn (BitVec.eq_of_toNat_eq hop) _
  case h_5 hop =>
    have hop : q.op = 4 := BitVec.eq_of_toNat_eq hop
    split
    case isTrue hn => exact .rrd hop (isInf_eq_false_of_isNaN hn) .nan .case0 .none 0 0
    case isFalse =>
      split
      case isTrue hi => exact .infinite (.inl hop) hi
      case isFalse hi => exact .rrd hop (Bool.not_eq_true _ ▸ hi) .finite _ _ _ _
  case h_6 hop =>
    have hop : q.op = 5 := BitVec.eq_of_toNat_eq hop
    split
    case isTrue hn => exact .sinpi hop (isInf_eq_false_of_isNaN hn) _
    case isFalse =>
      split
      case isTrue hi => exact .infinite (.inr hop) hi
      case isFalse hi => exact .sinpi hop (Bool.not_eq_true _ ▸ hi) _
  case h_7 =>
    refine .reserved ?_
    obtain ⟨op, a, b⟩ := q
    revert op; dsimp only; decide

theorem step_answers {s t : State} (h : step s = .next t) : Answers (fetch s).inp.req t.rsp := by
  obtain ⟨m, rfl⟩ := eq_answer_of_step h
  exact unitResponse_answers _ _

theorem Answers.illegalOp_iff {q : Request} {r : Response} (h : Answers q r) :
    r.status = .illegalOp ↔ q.op = 6 ∨ q.op = 7 := by
  cases h with
  | decomp hop | compose hop | hiword hop | cpysgn hop | rrd hop | sinpi hop => simp [hop, Response.zero]
  | infinite hop => rcases hop with hop | hop <;> simp [hop, faultResponse, excStatus]
  | reserved hop => exact ⟨fun _ => hop, fun _ => rfl⟩

theorem Answers.invalidArg_of_isInf {q : Request} {r : Response} (h : Answers q r) (hop : q.op = 4 ∨ q.op = 5)
    (ha : isInf q.a = true) : r.status = .invalidArg := by
  cases h with
  | infinite => rfl
  | rrd _ hf | sinpi _ hf => simp [ha] at hf
  | decomp h' | compose h' | hiword h' | cpysgn h' => simp [h'] at hop
  | reserved h' => rcases h' with h' | h' <;> simp [h'] at hop

/-- Settles O5: the status follows the code, and the decoder rejects the same two codes. -/
theorem onlyReservedCodesAreIllegal : Obligations.OnlyReservedCodesAreIllegal := by
  intro s
  obtain ⟨m, hm⟩ := step_eq_answer s
  have hr := step_answers hm
  exact ⟨_, hm, hr.illegalOp_iff, decode_instr_iff _, hr.invalidArg_of_isInf⟩

/-- Settles O55: each response is the zero response with the fields of its operation or of its fault assigned. -/
theorem unassignedFieldsAreZero : Obligations.UnassignedFieldsAreZero := by
  intro s t h
  have hr := step_answers h
  generalize (fetch s).inp.req = q, t.rsp = r at hr ⊢
  cases hr with
  | decomp hop | compose hop | hiword hop | cpysgn hop | rrd hop | sinpi hop => simp [hop, Response.zero]
  | infinite hop => rcases hop with hop | hop <;> simp [hop, faultResponse, excStatus, Response.zero]
  | reserved hop => rcases hop with hop | hop <;> simp [hop, faultResponse, excStatus, Response.zero]

/-! ## Ignored bits (R85) -/

/-- Two requests with the same reserved code are answered alike, whatever their operands. -/
theorem unit_of_reserved_congr {q q' : Request} (hop : q.op = 6 ∨ q.op = 7) (heq : q.op = q'.op) :
    unitResponse q = unitResponse q' ∧ unitTrig q = unitTrig q' := by
  obtain ⟨op, h⟩ := (decode_reserved_iff q).mpr hop
  obtain ⟨op', h'⟩ := (decode_reserved_iff q').mpr (heq ▸ hop)
  obtain rfl : op = op' := (op_of_decode_reserved h).1.symm.trans (heq.trans (op_of_decode_reserved h').1)
  exact ⟨funext fun tp => (unit_of_reserved h tp).1.trans (unit_of_reserved h' tp).1.symm,
    (unit_of_reserved h 0).2.trans (unit_of_reserved h' 0).2.symm⟩

/-- The stateless unit sees of a request its code and the bits the operation takes. -/
theorem unit_congr {q q' : Request} (hop : q.op = q'.op)
    (hone : q.op = 0 ∨ q.op = 2 ∨ q.op = 4 ∨ q.op = 5 → q.a = q'.a)
    (hcompose : q.op = 1 → q.a.extractLsb' 0 32 = q'.a.extractLsb' 0 32 ∧ q.b.extractLsb' 0 32 = q'.b.extractLsb' 0 32)
    (hcpysgn : q.op = 3 → q.a = q'.a ∧ q.b.extractLsb' 63 1 = q'.b.extractLsb' 63 1) :
    unitResponse q = unitResponse q' ∧ unitTrig q = unitTrig q' := by
  obtain ⟨op, a, b⟩ := q
  obtain ⟨op', a', b'⟩ := q'
  obtain rfl : op = op' := hop
  dsimp only at hone hcompose hcpysgn
  have hcodes : ∀ c : BitVec 3, c = 1 ∨ c = 3 ∨ (c = 6 ∨ c = 7) ∨ (c = 0 ∨ c = 2 ∨ c = 4 ∨ c = 5) ∧ c ≠ 1 ∧ c ≠ 3 := by
    decide
  rcases hcodes op with rfl | rfl | hop | ⟨hop, h1, h3⟩
  · obtain ⟨ha, hb⟩ := hcompose rfl
    exact ⟨funext fun _ => by simp [unitResponse, ha, hb], by simp [unitTrig]⟩
  · obtain ⟨rfl, hb⟩ := hcpysgn rfl
    exact ⟨funext fun _ => by simp [unitResponse, hb], by simp [unitTrig]⟩
  · exact unit_of_reserved_congr hop rfl
  · obtain rfl := hone hop
    exact unit_ignores_b h1 h3 a b b'

/-- Settles O6: both steps answer as the stateless unit, which takes the same bits of both requests. -/
theorem ignoredBitsHaveNoEffect : Obligations.IgnoredBitsHaveNoEffect := by
  refine ⟨fun s q q' tp hop hone hcompose hcpysgn => ?_, ignoredBitsZero_encode⟩
  obtain ⟨hrsp, htrig⟩ := unit_congr hop hone hcompose hcpysgn
  obtain ⟨m, hm⟩ := step_eq_answer (s.present { req := q, tp := tp })
  obtain ⟨m', hm'⟩ := step_eq_answer (s.present { req := q', tp := tp })
  have htp : tpAfter s.cfg (unitTrig q) tp = tpAfter s.cfg (unitTrig q') tp := by rw [htrig]
  exact ⟨_, _, hm, hm', (congrFun hrsp _).trans (congrArg (unitResponse q') htp), htrig, htp⟩

/-! ## Scripts (R90, R91) -/

/-- A line that makes a request is a `RAW` line with that request, or makes the encoding of an operation. -/
theorem request_of_assemble {env : Env} {l : Line} {d : Name} {q : Request} (h : assemble env l = some (d, q)) :
    (∃ op a b, l = .raw d op a b ∧ q = { op := op, a := a, b := b }) ∨ ∃ i, q = encode i := by
  cases l with
  | raw d' op a b => cases h; exact .inl ⟨op, a, b, rfl, rfl⟩
  | letBind | expect => cases h
  | decomp d' x | hiword d' x | rrd d' x | sinpi d' x =>
    obtain ⟨_, -, hq⟩ := Option.bind_eq_some_iff.mp h
    cases hq; exact .inr ⟨_, rfl⟩
  | compose d' x y | cpysgn d' x y =>
    obtain ⟨_, -, h⟩ := Option.bind_eq_some_iff.mp h
    obtain ⟨_, -, hq⟩ := Option.bind_eq_some_iff.mp h
    cases hq; exact .inr ⟨_, rfl⟩

/-- Settles O56: an operation line is assembled by the encoder, whose requests are canonical. -/
theorem assemblerWritesCanonicalRequests : Obligations.AssemblerWritesCanonicalRequests := by
  intro env l d q h
  refine (request_of_assemble h).imp_right ?_
  rintro ⟨i, rfl⟩
  exact canonical_encode i

/-- A line that makes a request is performed by one step, and the script goes on unless the response is a fault that the
next line does not acknowledge. -/
theorem runScript_of_assemble {env : Env} {l : Line} {d : Name} {q : Request} {s t : State}
    (h : assemble env l = some (d, q)) (hstep : step (s.present { req := q, tp := s.inp.tp }) = .next t)
    (rest : List Line) :
    runScript (l :: rest) env s =
      if t.rsp.status = .ok ∨ acknowledges d rest then runScript rest ((d, .response t.rsp) :: env) t
      else (.faulted d, (d, .response t.rsp) :: env, t) := by
  cases l with
  | letBind | expect => cases h
  | decomp | compose | hiword | cpysgn | rrd | sinpi | raw => simp only [runScript, h, hstep]

/-- Settles O57: the step of a request line answers a next state, and its status and the next line decide. -/
theorem scriptStopsAtAnUnacknowledgedFault : Obligations.ScriptStopsAtAnUnacknowledgedFault := by
  intro env s l rest d q h
  obtain ⟨m, hm⟩ := step_eq_answer (s.present { req := q, tp := s.inp.tp })
  refine ⟨_, hm, fun hstatus hack => ?_, fun hgo => ?_⟩
  · rw [runScript_of_assemble h hm, if_neg (not_or.mpr ⟨hstatus, by simp [hack]⟩)]
  · rw [runScript_of_assemble h hm, if_pos hgo]

end Sys2Proof.Machine
end

section
/-! SUPPORT. 40_word_ops.md: `words` and `fromWords` are inverse, the masks read the fields off the words, and each word
operation's next state said once for the obligations. -/

namespace Sys2Proof.Machine

/-! ## Words and patterns (R100, R102, R106) -/

theorem fromWords_words (x : F64) : fromWords (words x).1 (words x).2 = x :=
  (slice_append x 0 32 32).trans BitVec.extractLsb'_eq_self

theorem words_fromWords (high low : U32) : words (fromWords high low) = (high, low) :=
  Prod.ext BitVec.extractLsb'_append_eq_left BitVec.extractLsb'_append_eq_right

/-! ## The next state of each operation (R101, R103, R105) -/

theorem exec_decomp (x : F64) (s : State) :
    exec (.decomp x) s = .next ((s.withScr (scrWords s.cfg s.scr x).2).withOutputs
      { Response.zero with hi := (words x).1, lo := (words x).2 } TrigOut.idle) := by
  rw [exec, execDecomp, scrWords_result, respond]

theorem exec_compose (high low : U32) (s : State) :
    exec (.compose high low) s = .next ((s.withScr (scrFromWords s.cfg s.scr high low).2).withOutputs
      { Response.zero with y := fromWords high low } TrigOut.idle) := by
  rw [exec, execCompose, scrFromWords_result, respond]

theorem exec_hiword (x : F64) (s : State) :
    exec (.hiword x) s = .next ((s.withScr (scrHighWord s.cfg s.scr x).2).withOutputs
      { Response.zero with hi := highWord x } TrigOut.idle) := by
  rw [exec, execHiword, scrHighWord_result, respond]

/-- Settles O19: the answer is `words`, and the buffer is left by its one store. -/
theorem decompAnswersBothWords : Obligations.DecompAnswersBothWords := by
  refine ⟨fun _ _ => rfl, fun x s => ?_⟩
  rw [exec_decomp, scrWords_scr]
  rfl

/-- Settles O20: the answer is `fromWords`, whatever the buffer holds. -/
theorem composeAnswersThePattern : Obligations.ComposeAnswersThePattern :=
  ⟨fun _ _ => rfl, exec_compose⟩

/-- Settles O21: the answer is `highWord`, and the buffer is left by its one store. -/
theorem hiwordAnswersTheHighWord : Obligations.HiwordAnswersTheHighWord := by
  refine ⟨fun _ _ => rfl, fun x s => ?_⟩
  rw [exec_hiword, scrHighWord_scr]
  rfl

/-! ## The operations against each other (R106, R107) -/

/-- Settles O22: the second operation answers what the inverse of the first one's word function gives. -/
theorem decompAndComposeAreInverse : Obligations.DecompAndComposeAreInverse := by
  constructor
  · intro x s
    exact ⟨_, _, exec_decomp x s, exec_compose _ _ _, fromWords_words x⟩
  · intro high low s
    obtain ⟨hhigh, hlow⟩ := Prod.mk.inj (words_fromWords high low)
    exact ⟨_, _, exec_compose high low s, exec_decomp _ _, hhigh, hlow⟩

/-- Settles O23: `highWord` is the first of `words`. -/
theorem hiwordAgreesWithDecomp : Obligations.HiwordAgreesWithDecomp :=
  fun x s => ⟨_, _, exec_decomp x s, exec_hiword x s, rfl⟩

/-! ## Fields in the words (R108) -/

/-- A slice of a slice is a slice. -/
theorem slice_slice {n lo len lo' len' : Nat} (x : BitVec n) (h : lo' + len' ≤ len) :
    (x.extractLsb' lo len).extractLsb' lo' len' = x.extractLsb' (lo + lo') len' := by
  ext i hi
  simp [show lo' + i < len by omega, Nat.add_assoc]

theorem signOf_eq_high (x : F64) : signOf x = (words x).1.extractLsb' 31 1 := by
  rw [words, slice_slice x (by decide), signOf]

theorem expo_eq_high (x : F64) : expo x = (words x).1.extractLsb' 20 11 := by
  rw [words, slice_slice x (by decide), expo]

theorem frac_eq_words (x : F64) : frac x = ((words x).1.extractLsb' 0 20 ++ (words x).2 : BitVec 52) := by
  rw [words, slice_slice x (by decide), frac]
  exact (slice_append x 0 20 32).symm

/-- Joined vectors are equal part by part. -/
theorem append_eq_append_iff {m n : Nat} {a a' : BitVec m} {b b' : BitVec n} :
    a ++ b = a' ++ b' ↔ a = a' ∧ b = b' := by
  constructor
  · intro h
    have hleft := congrArg (BitVec.extractLsb' n m) h
    have hright := congrArg (BitVec.extractLsb' 0 n) h
    simp only [BitVec.extractLsb'_append_eq_left, BitVec.extractLsb'_append_eq_right] at hleft hright
    exact ⟨hleft, hright⟩
  · rintro ⟨rfl, rfl⟩
    rfl

/-- A high word is its sign bit, its exponent bits and its fraction bits. -/
theorem join_fields_of_word (h : U32) :
    (h.extractLsb' 31 1 ++ h.extractLsb' 20 11 ++ h.extractLsb' 0 20 : U32) = h := by
  rw [slice_append h 20 1 11, slice_append h 0 12 20, slice_all32]

theorem and_expoMask (h : U32) : h &&& 0x7FF00000#32 = (0#1 ++ h.extractLsb' 20 11 ++ 0#20 : U32) := by
  have hmask : 0x7FF00000#32 = (0#1 ++ BitVec.allOnes 11 ++ 0#20 : U32) := by decide
  conv_lhs => rw [← join_fields_of_word h, hmask, BitVec.and_append, BitVec.and_append]
  simp only [BitVec.and_zero, BitVec.and_allOnes]

theorem and_fracMask (h : U32) : h &&& 0x000FFFFF#32 = (0#12 ++ h.extractLsb' 0 20 : U32) := by
  have hmask : 0x000FFFFF#32 = (0#12 ++ BitVec.allOnes 20 : U32) := by decide
  conv_lhs => rw [← join_fields_of_word h, hmask, BitVec.and_append]
  simp only [BitVec.and_zero, BitVec.and_allOnes]

/-- The exponent field is all ones exactly when the high word holds every bit of the exponent mask. -/
theorem high_and_expoMask_beq (x : F64) : ((words x).1 &&& 0x7FF00000#32 == 0x7FF00000#32) = (expo x == 0x7FF#11) := by
  have hmask : 0x7FF00000#32 = (0#1 ++ 0x7FF#11 ++ 0#20 : U32) := by decide
  rw [beq_eq_beq, and_expoMask, ← expo_eq_high, hmask, append_eq_append_iff, append_eq_append_iff, and_iff_left rfl,
    and_iff_right rfl]

/-- The fraction field is zero exactly when the fraction bits of the high word and the whole low word are. -/
theorem high_and_fracMask_or_low_beq (x : F64) :
    ((words x).1 &&& 0x000FFFFF#32 ||| (words x).2 == 0) = (frac x == 0) := by
  have hhigh : (words x).1 &&& 0x000FFFFF#32 = 0#32 ↔ (words x).1.extractLsb' 0 20 = 0#20 := by
    have hzero : 0#32 = (0#12 ++ 0#20 : U32) := by decide
    rw [and_fracMask, hzero, append_eq_append_iff, and_iff_right rfl]
  have hfrac : frac x = 0#52 ↔ (words x).1.extractLsb' 0 20 = 0#20 ∧ (words x).2 = 0#32 := by
    have hzero : 0#52 = (0#20 ++ 0#32 : BitVec 52) := by decide
    rw [frac_eq_words, hzero, append_eq_append_iff]
  exact beq_eq_beq.mpr (BitVec.or_eq_zero_iff.trans ((and_congr_left' hhigh).trans hfrac.symm))

/-- Settles O24: the fields are slices of the words, and the masks test them. -/
theorem fieldsAndClassFromTheWords : Obligations.FieldsAndClassFromTheWords := by
  intro x
  refine ⟨signOf_eq_high x, expo_eq_high x, frac_eq_words x, ?_, ?_, ?_⟩
  · rw [isNaN, isNaNWords, bne, bne, high_and_expoMask_beq, high_and_fracMask_or_low_beq]
  · rw [isInf, isInfWords, high_and_expoMask_beq, high_and_fracMask_or_low_beq]
  · rw [isFinite, isFiniteWords, bne, bne, high_and_expoMask_beq]

end Sys2Proof.Machine
end

section
/-! SUPPORT. 41_copysign.md: the fields of a sign copy, the laws that follow from them, the next state of CPYSGN, and its
answer from the word operations. -/

namespace Sys2Proof.Machine

/-! ## The fields of a sign copy (R110) -/

/-- The sign of the sign source above the magnitude bits of the magnitude source. -/
theorem copySign_eq_append (mag sgn : F64) : copySign mag sgn = signOf sgn ++ magBits mag :=
  copySign_eq_slices mag sgn

@[simp] theorem signOf_copySign (mag sgn : F64) : signOf (copySign mag sgn) = signOf sgn := by
  rw [copySign_eq_append, (fields_of_append _ _).1]

@[simp] theorem expo_copySign (mag sgn : F64) : expo (copySign mag sgn) = expo mag := by
  rw [copySign_eq_append, (fields_of_append _ _).2.1]

@[simp] theorem frac_copySign (mag sgn : F64) : frac (copySign mag sgn) = frac mag := by
  rw [copySign_eq_append, (fields_of_append _ _).2.2]

/-- Which pattern a sign copy is, field by field. -/
theorem copySign_eq_iff {mag sgn x : F64} :
    copySign mag sgn = x ↔ signOf sgn = signOf x ∧ expo mag = expo x ∧ frac mag = frac x := by
  constructor
  · rintro rfl
    simp
  · rintro ⟨hs, he, hf⟩
    exact f64_ext (by simpa) (by simpa) (by simpa)

/-! ## Laws (R112, R113) -/

theorem copySign_congr_sign {b c : F64} (a : F64) (h : signOf b = signOf c) : copySign a b = copySign a c := by
  rw [copySign_eq_append, copySign_eq_append, h]

theorem copySign_eq_self_iff {a b : F64} : copySign a b = a ↔ signOf a = signOf b := by
  rw [copySign_eq_iff, and_iff_left ⟨rfl, rfl⟩, eq_comm]

theorem copySign_self (x : F64) : copySign x x = x := copySign_eq_self_iff.mpr rfl

/-- Of two different sign bits one is the complement of the other. -/
theorem eq_not_of_ne {s t : BitVec 1} : s ≠ t → t = ~~~s := by
  revert s t; decide

theorem copySign_eq_fneg {a b : F64} (h : signOf a ≠ signOf b) : copySign a b = fneg a := by
  rw [copySign_eq_append, fneg, eq_not_of_ne h]

/-- A sign copy of a sign copy keeps the inner magnitude and the outer sign. -/
theorem copySign_copySign_left (a b c : F64) : copySign (copySign a b) c = copySign a c :=
  copySign_eq_iff.mpr (by simp)

theorem copySign_copySign_right (a b c : F64) : copySign a (copySign b c) = copySign a c :=
  copySign_congr_sign a (signOf_copySign b c)

theorem fabs_eq_copySign_c0 (a : F64) : fabs a = copySign a c0 := (copySign_eq_append a c0).symm

theorem fabs_copySign (a b : F64) : fabs (copySign a b) = fabs a := by
  rw [fabs_eq_copySign_c0, fabs_eq_copySign_c0, copySign_copySign_left]

theorem fneg_copySign (a b : F64) : fneg (copySign a b) = copySign a (fneg b) :=
  f64_ext (by simp) (by simp) (by simp)

theorem isNaN_copySign (a b : F64) : isNaN (copySign a b) = isNaN a := by simp [isNaN]

theorem isInf_copySign (a b : F64) : isInf (copySign a b) = isInf a := by simp [isInf]

theorem isZero_copySign (a b : F64) : isZero (copySign a b) = isZero a := by simp [isZero]

theorem isFinite_copySign (a b : F64) : isFinite (copySign a b) = isFinite a := by simp [isFinite]

/-- Settles O26: each law compares the sign, exponent and fraction fields of two patterns. -/
theorem copySignLaws : Obligations.CopySignLaws := fun a b c =>
  ⟨signOf_copySign a b, fabs_copySign a b, copySign_congr_sign a, copySign_copySign_left a b c,
    copySign_copySign_right a b c, fabs_eq_copySign_c0 a, fneg_copySign a b, copySign_eq_self_iff.mpr, copySign_eq_fneg,
    copySign_eq_self_iff, isNaN_copySign a b, isInf_copySign a b, isZero_copySign a b, isFinite_copySign a b⟩

/-! ## The operation (R111, R112, R115) -/

theorem exec_cpysgn (mag sgn : F64) (s : State) :
    exec (.cpysgn mag sgn) s = .next ((s.withScr (scrCopySign s.cfg s.scr mag sgn).2).withOutputs
      { Response.zero with y := copySign mag sgn } TrigOut.idle) := by
  rw [exec, execCpysgn, scrCopySign_result, respond]

/-- Settles O25: the answer is `copySign`, whatever the buffer holds. -/
theorem cpysgnAnswersSignOnMagnitude : Obligations.CpysgnAnswersSignOnMagnitude := by
  refine ⟨fun _ _ => rfl, fun mag sgn s => ?_⟩
  rw [exec_cpysgn, copySign_eq_slices]
  rfl

/-- Settles O27: a pattern has its own sign, and the sign of -1.0 is 1. -/
theorem cpysgnInvariants : Obligations.CpysgnInvariants := fun x s =>
  ⟨⟨_, exec_cpysgn x x s, copySign_self x⟩, ⟨_, exec_cpysgn x cMinus1 s, copySign_eq_slices x cMinus1⟩⟩

/-- Settles O28: the three operations answer `words`, `highWord` and `fromWords`, and `copySign` is those functions with the
same masks. -/
theorem cpysgnFromWordOperations : Obligations.CpysgnFromWordOperations := fun mag sgn s =>
  ⟨_, _, _, _, exec_decomp mag s, exec_hiword sgn _, exec_compose _ _ _, exec_cpysgn mag sgn s, rfl⟩

end Sys2Proof.Machine
end

section
/-! SUPPORT. 42_range_reduction.md, sections 2 and 3: `fmod2` is the exact remainder by 2, and the case is the first row whose
numeric condition holds. -/

namespace Sys2Proof.Machine

/-! ## Patterns from their values (R16, R17) -/

theorem val_eq_sign_mul_abs (x : F64) : val x = (-1) ^ (signOf x).toNat * |val x| := by
  rw [abs_val, val, mul_assoc]

theorem abs_val_copySign (mag sgn : F64) : |val (copySign mag sgn)| = |val mag| := by
  rw [← val_fabs, fabs_copySign, val_fabs]

/-- A sign copy has the magnitude of the one pattern and the sign of the other, as a value too. -/
theorem val_copySign (mag sgn : F64) : val (copySign mag sgn) = (-1) ^ (signOf sgn).toNat * |val mag| := by
  rw [val_eq_sign_mul_abs, signOf_copySign, abs_val_copySign]

/-- A pattern is its sign and the magnitude of its value. -/
theorem eq_of_signOf_abs_val {a b : F64} (hs : signOf a = signOf b) (h : |val a| = |val b|) : a = b :=
  eq_of_signOf_magBits hs (abs_val_eq_iff.mp h)

theorem val_nonneg_of_sign_zero {x : F64} (h : signOf x = 0) : 0 ≤ val x :=
  abs_val_of_sign_zero h ▸ abs_nonneg _

theorem val_nonpos_of_sign_one {x : F64} (h : signOf x = 1) : val x ≤ 0 := by
  rw [val_eq_sign_mul_abs, h]; simp

/-- Values of one sign lie on one side of zero. -/
theorem val_mul_val_of_signOf_eq {a b : F64} (h : signOf a = signOf b) : val a * val b = |val a| * |val b| := by
  rcases signOf_cases b with hb | hb
  · rw [abs_val_of_sign_zero hb, abs_val_of_sign_zero (h.trans hb)]
  · rw [abs_of_nonpos (val_nonpos_of_sign_one hb), abs_of_nonpos (val_nonpos_of_sign_one (h.trans hb)), neg_mul_neg]

/-- Off the zeros a value determines its pattern. -/
theorem eq_of_val_eq {a b : F64} (hne : val a ≠ 0) (h : val a = val b) : a = b := by
  refine eq_of_signOf_abs_val ?_ (congrArg abs h)
  rcases signOf_cases a with ha | ha <;> rcases signOf_cases b with hb | hb
  · rw [ha, hb]
  · exact absurd (le_antisymm (h ▸ val_nonpos_of_sign_one hb) (val_nonneg_of_sign_zero ha)) hne
  · exact absurd (le_antisymm (val_nonpos_of_sign_one ha) (h ▸ val_nonneg_of_sign_zero hb)) hne
  · rw [ha, hb]

theorem val_zeroOf (s : BitVec 1) : val (zeroOf s) = 0 := by
  rw [← sig_eq_zero_iff, sig_of_subnormal (by simp)]; simp

theorem isFinite_zeroOf (s : BitVec 1) : isFinite (zeroOf s) = true := by simp [isFinite]

theorem isZero_iff {x : F64} : isZero x = true ↔ val x = 0 := by
  constructor
  · intro h
    obtain ⟨he, hf⟩ : expo x = 0 ∧ frac x = 0 := by simpa [isZero] using h
    rw [← sig_eq_zero_iff, sig_of_subnormal (by rw [he]; rfl), hf]; rfl
  · intro h
    rw [eq_zeroOf_of_val_eq_zero h]; simp [isZero]

/-- The exponent of a finite pattern is at most that of the largest one. -/
theorem sig_exp_le {x : F64} (h : isFinite x = true) : (sig x).2 ≤ 971 := by
  have hE : (expo x).toNat ≠ 2047 := fun hE => by
    have : expo x = 0x7FF#11 := BitVec.eq_of_toNat_eq hE
    simp [isFinite, this] at h
  have := (expo x).isLt
  unfold sig; split <;> dsimp only <;> omega

/-! ## The remainder by 2 (R123, R124) -/

theorem fmod2_band1 {x : F64} (h : (expo x).toNat ≤ 1023) : fmod2 x = x := by
  simp only [fmod2, if_pos h]

theorem fmod2_band3 {x : F64} (h : 1076 ≤ (expo x).toNat) : fmod2 x = zeroOf (signOf x) := by
  simp only [fmod2, if_neg (show ¬ (expo x).toNat ≤ 1023 by omega), if_pos h]

/-- Normalising `K`, the fraction bits below the unit `2^k`, keeps its value, and the exponent field stays positive. -/
theorem fmod2_band2 {x : F64} {k : ℕ} (hk : (expo x).toNat = 1076 - k) (hlow : 1 ≤ k) (hhigh : k ≤ 52) :
    isFinite (fmod2 x) = true ∧ signOf (fmod2 x) = signOf x ∧
      |val (fmod2 x)| = ((frac x).toNat % 2 ^ k : ℕ) * 2 ^ (1 - k : ℤ) := by
  have hfmod : fmod2 x = if (frac x).toNat % 2 ^ k = 0 then zeroOf (signOf x)
      else packF64 (signOf x) (BitVec.ofNat 11 (1076 - k - (53 - bitLen ((frac x).toNat % 2 ^ k))))
        (BitVec.ofNat 52 ((frac x).toNat % 2 ^ k * 2 ^ (53 - bitLen ((frac x).toNat % 2 ^ k)))) := by
    simp only [fmod2, hk, if_neg (show ¬ 1076 - k ≤ 1023 by omega), if_neg (show ¬ 1076 ≤ 1076 - k by omega),
      show 1076 - (1076 - k) = k by omega]
  have hK : (frac x).toNat % 2 ^ k < 2 ^ k := Nat.mod_lt _ (by positivity)
  generalize (frac x).toNat % 2 ^ k = K at hfmod hK ⊢
  rw [hfmod]
  split
  case isTrue h0 => exact ⟨isFinite_zeroOf _, signOf_zeroOf _, by rw [h0, val_zeroOf]; simp⟩
  case isFalse h0 =>
    have hlen : bitLen K ≤ k := bitLen_le hK
    have hpos := bitLen_pos h0
    obtain ⟨d, hd⟩ : ∃ d, d = 53 - bitLen K := ⟨_, rfl⟩
    have hlow : 2 ^ 52 ≤ K * 2 ^ d := by
      calc 2 ^ 52 = 2 ^ (bitLen K - 1) * 2 ^ d := by rw [← pow_add]; congr 1; omega
        _ ≤ K * 2 ^ d := Nat.mul_le_mul_right _ (two_pow_bitLen_le h0)
    have hhigh : K * 2 ^ d < 2 ^ 53 := by
      calc K * 2 ^ d < 2 ^ bitLen K * 2 ^ d := Nat.mul_lt_mul_of_pos_right (lt_two_pow_bitLen K) (by positivity)
        _ = 2 ^ 53 := by rw [← pow_add]; congr 1; omega
    have hpack : packF64 (signOf x) (BitVec.ofNat 11 (1076 - k - d)) (BitVec.ofNat 52 (K * 2 ^ d)) =
        packSig (signOf x) (K * 2 ^ d) (1 - k - d) := by
      rw [packSig, if_pos hlow]; congr 2; omega
    rw [← hd, hpack]
    refine ⟨isFinite_packSig _ (by omega) (by omega), signOf_packSig _ _ _, ?_⟩
    rw [abs_val, sig_packSig _ hhigh (by omega) (by omega) (by omega)]
    push_cast
    rw [zpow_sub₀ two_ne_zero _ (d : ℤ), zpow_natCast]
    field_simp

/-- A value below 2 that differs from another by an even integer is its remainder by 2. -/
theorem eq_sub_two_mul_floor {v w : ℚ} (n : ℤ) (h : v = 2 * n + w) (hlow : 0 ≤ w) (hhigh : w < 2) :
    w = v - 2 * (⌊v / 2⌋ : ℤ) := by
  have hfloor : ⌊v / 2⌋ = n := by
    rw [Int.floor_eq_iff]; constructor <;> linarith
  rw [hfloor]; linarith

/-- What `fmod2` does to a finite pattern: it keeps the sign and takes an even integer off the magnitude. -/
theorem fmod2_spec {x : F64} (hx : isFinite x = true) :
    isFinite (fmod2 x) = true ∧ signOf (fmod2 x) = signOf x ∧ |val (fmod2 x)| < 2 ∧
      ∃ n : ℤ, |val x| = 2 * n + |val (fmod2 x)| := by
  rcases le_or_gt (expo x).toNat 1023 with h1 | h1
  · rw [fmod2_band1 h1]
    have hlt : |val x| < 2 ^ (1 : ℤ) := (abs_val_lt x).trans_le (zpow_le_zpow_right₀ one_le_two (by omega))
    exact ⟨hx, rfl, by simpa using hlt, 0, by simp⟩
  have hval : |val x| = ((2 ^ 52 + (frac x).toNat : ℕ) : ℚ) * 2 ^ ((expo x).toNat - 1075 : ℤ) := by
    rw [abs_val, sig_of_normal (by omega)]
  rcases le_or_gt 1076 (expo x).toNat with h3 | h3
  · obtain ⟨j, hj⟩ := Nat.exists_eq_add_of_le h3
    rw [fmod2_band3 h3, val_zeroOf, hval, hj]
    refine ⟨isFinite_zeroOf _, signOf_zeroOf _, by simp, (2 ^ 52 + (frac x).toNat : ℕ) * 2 ^ j, ?_⟩
    rw [show ((1076 + j : ℕ) : ℤ) - 1075 = j + 1 by push_cast; ring, zpow_add_one₀ two_ne_zero, zpow_natCast]
    push_cast; ring
  · obtain ⟨k, hk⟩ : ∃ k, (expo x).toNat = 1076 - k := ⟨1076 - (expo x).toNat, by omega⟩
    obtain ⟨hfin, hsign, hrem⟩ := fmod2_band2 hk (by omega) (by omega)
    have hlt : (frac x).toNat % 2 ^ k < 2 ^ k := Nat.mod_lt _ (by positivity)
    have hdiv : 2 ^ 52 + (frac x).toNat = 2 ^ k * (2 ^ (52 - k) + (frac x).toNat / 2 ^ k) + (frac x).toNat % 2 ^ k := by
      rw [mul_add, ← pow_add, show k + (52 - k) = 52 by omega, add_assoc, Nat.div_add_mod]
    have hexp : (2 : ℚ) ^ k * 2 ^ (1 - k : ℤ) = 2 := by
      rw [← zpow_natCast, ← zpow_add₀ two_ne_zero]; simp
    rw [hrem, hval, show ((expo x).toNat : ℤ) - 1075 = 1 - k by omega]
    refine ⟨hfin, hsign, ?_, (2 ^ (52 - k) + (frac x).toNat / 2 ^ k : ℕ), ?_⟩
    · calc (((frac x).toNat % 2 ^ k : ℕ) : ℚ) * 2 ^ (1 - k : ℤ) < 2 ^ k * 2 ^ (1 - k : ℤ) := by
            gcongr; exact_mod_cast hlt
        _ = 2 := hexp
    · rw [hdiv, Nat.cast_add, add_mul, Nat.cast_mul, mul_right_comm, Nat.cast_pow, Nat.cast_ofNat, hexp, Int.cast_natCast]

section
variable {x : F64} (hx : isFinite x = true)
include hx

theorem isFinite_fmod2 : isFinite (fmod2 x) = true :=
  have ⟨h, _⟩ := fmod2_spec hx; h

theorem signOf_fmod2 : signOf (fmod2 x) = signOf x :=
  have ⟨_, h, _⟩ := fmod2_spec hx; h

theorem abs_val_fmod2_lt_two : |val (fmod2 x)| < 2 :=
  have ⟨_, _, h, _⟩ := fmod2_spec hx; h

theorem exists_abs_val_eq_add_fmod2 : ∃ n : ℤ, |val x| = 2 * n + |val (fmod2 x)| :=
  have ⟨_, _, _, h⟩ := fmod2_spec hx; h

theorem abs_val_fmod2 : |val (fmod2 x)| = |val x| - 2 * (⌊|val x| / 2⌋ : ℤ) := by
  obtain ⟨n, hn⟩ := exists_abs_val_eq_add_fmod2 hx
  exact eq_sub_two_mul_floor n hn (abs_nonneg _) (abs_val_fmod2_lt_two hx)

/-- The remainder is odd (R136). -/
theorem fmod2_fneg : fmod2 (fneg x) = fneg (fmod2 x) := by
  have hx' : isFinite (fneg x) = true := by simpa using hx
  apply eq_of_signOf_abs_val
  · rw [signOf_fmod2 hx', signOf_fneg, signOf_fneg, signOf_fmod2 hx]
  · rw [abs_val_fmod2 hx', val_fneg, val_fneg, abs_neg, abs_neg, abs_val_fmod2 hx]

end

/-- Settles O33: in each band `fmod2` keeps the sign and takes an even integer off the magnitude, which leaves less
than 2. -/
theorem fmodIsTheExactRemainder : Obligations.FmodIsTheExactRemainder :=
  fun _ hx => ⟨isFinite_fmod2 hx, signOf_fmod2 hx, abs_val_fmod2 hx⟩

/-! ## The case (R126) -/

/-- The tests on patterns are the tests on values: the constants are the patterns of the bounds. -/
theorem caseOf_eq_by_value (a : F64) :
    caseOf a =
      if |val a| = 0 ∨ |val a| = 1 then .case0
      else if |val a| < 1 / 4 then .case1
      else if |val a| < 3 / 4 then .case2
      else if |val a| < 5 / 4 then .case3
      else if |val a| < 7 / 4 then .case4
      else .case5 := by
  have hzero : |val a| = 0 ↔ magBits a = 0 := by
    rw [show (0 : BitVec 63) = magBits c0 from rfl, ← abs_val_eq_iff, val_c0, abs_zero]
  have hone : |val a| = 1 ↔ magBits a = magBits c1 := by rw [← abs_val_eq_iff, val_c1, abs_one]
  have hlt (c : F64) (v : ℚ) (hc : val c = v) (hv : 0 < v) : |val a| < v ↔ magBits a < magBits c := by
    rw [← abs_val_lt_iff, hc, abs_of_pos hv]
  simp only [caseOf, hzero, hone, hlt c025 _ val_c025 (by norm_num), hlt c075 _ val_c075 (by norm_num),
    hlt c125 _ val_c125 (by norm_num), hlt c175 _ val_c175 (by norm_num)]

/-- Settles O34: the value of `ar` is the magnitude of the remainder, and the case tests it. -/
theorem caseIsTheFirstMatchingRow : Obligations.CaseIsTheFirstMatchingRow := by
  intro x hx
  have hcase := caseOf_eq_by_value (fabs (fmod2 x))
  simp only [val_fabs, abs_abs] at hcase ⊢
  exact ⟨abs_nonneg _, abs_val_fmod2_lt_two hx, hcase⟩

end Sys2Proof.Machine
end

section
/-! SUPPORT. 42_range_reduction.md, section 4: the trig argument of each case is the exact difference of its row, at most a
quarter. -/

namespace Sys2Proof.Machine

/-! ## The exact difference (R127) -/

/-- A finite pattern as an integer in units of a smaller power of 2. -/
theorem scaledInt_mul {x : F64} {q : ℤ} (h : q ≤ (sig x).2) : (scaledInt x q : ℚ) * 2 ^ q = val x := by
  obtain ⟨k, hk⟩ := Int.eq_ofNat_of_zero_le (sub_nonneg.mpr h)
  have hexp : (2 : ℚ) ^ (sig x).2 = 2 ^ k * 2 ^ q := by
    rw [← zpow_natCast, ← zpow_add₀ two_ne_zero]; congr 1; omega
  rw [scaledInt, val, hk, hexp, Int.toNat_natCast]
  push_cast; ring

/-- `encx` answers a finite pattern of the magnitude wherever a significand of 53 bits is enough. -/
theorem encx_of_lt (s : BitVec 1) {n : ℕ} {q : ℤ} (hn : n < 2 ^ 53) (hlow : -1074 ≤ q) (hhigh : q ≤ 971) :
    isFinite (encx s n q) = true ∧ signOf (encx s n q) = s ∧ |val (encx s n q)| = n * 2 ^ q := by
  unfold encx
  split
  case isTrue h0 => exact ⟨isFinite_zeroOf s, signOf_zeroOf s, by simp [h0, val_zeroOf]⟩
  case isFalse h0 =>
    have hlen : bitLen n ≤ 53 := bitLen_le hn
    obtain ⟨k, hk⟩ : ∃ k : ℕ, q - targetExp (bitLen n) q = k := by
      apply Int.eq_ofNat_of_zero_le; unfold targetExp; omega
    have hklen : bitLen n + k ≤ 53 := by unfold targetExp at hk; omega
    have hshift : shiftNat n (q - targetExp (bitLen n) q) = n * 2 ^ k := by simp [shiftNat, hk]
    have hlt : n * 2 ^ k < 2 ^ 53 := by
      calc n * 2 ^ k < 2 ^ bitLen n * 2 ^ k := Nat.mul_lt_mul_of_pos_right (lt_two_pow_bitLen n) (by positivity)
        _ = 2 ^ (bitLen n + k) := (pow_add _ _ _).symm
        _ ≤ 2 ^ 53 := Nat.pow_le_pow_right (by omega) hklen
    have hnormal : n * 2 ^ k < 2 ^ 52 → targetExp (bitLen n) q = -1074 := by
      intro hsmall
      have hpos := bitLen_pos h0
      have hpow : 2 ^ (bitLen n - 1 + k) < 2 ^ 52 := by
        rw [pow_add]; exact (Nat.mul_le_mul_right _ (two_pow_bitLen_le h0)).trans_lt hsmall
      have := (Nat.pow_lt_pow_iff_right (by omega)).mp hpow
      unfold targetExp at hk ⊢; omega
    have he : -1074 ≤ targetExp (bitLen n) q := le_max_right _ _
    dsimp only
    rw [hshift]
    refine ⟨isFinite_packSig s he (by omega), signOf_packSig s _ _, ?_⟩
    have hpow : (2 : ℚ) ^ q = 2 ^ k * 2 ^ targetExp (bitLen n) q := by
      rw [← zpow_natCast, ← zpow_add₀ two_ne_zero]; congr 1; omega
    rw [abs_val, sig_packSig s hlt he (by omega) hnormal, hpow]
    push_cast; ring

theorem neg_one_pow_of_sign_mul_natAbs (d : ℤ) :
    ((-1) ^ (if d < 0 then 1 else 0 : BitVec 1).toNat * d.natAbs : ℚ) = d := by
  split
  case isTrue h => rw [Nat.cast_natAbs, abs_of_neg h]; simp
  case isFalse h => rw [Nat.cast_natAbs, abs_of_nonneg (by omega)]; simp

/-- A finite pattern of at least a quarter is a multiple of `2^-54`. -/
theorem le_sig_exp_of_quarter_le {x : F64} (h : 1 / 4 ≤ |val x|) : -54 ≤ (sig x).2 := by
  have hsig : ((sig x).1 : ℚ) < 2 ^ (53 : ℤ) := mod_cast sig_lt x
  have hlt : (2 : ℚ) ^ (-2 : ℤ) < 2 ^ (53 + (sig x).2) := by
    calc (2 : ℚ) ^ (-2 : ℤ) ≤ |val x| := by norm_num at h ⊢; exact h
      _ = (sig x).1 * 2 ^ (sig x).2 := abs_val x
      _ < 2 ^ (53 : ℤ) * 2 ^ (sig x).2 := by gcongr
      _ = 2 ^ (53 + (sig x).2) := (zpow_add₀ two_ne_zero _ _).symm
  have := (zpow_lt_zpow_iff_right₀ (one_lt_two (α := ℚ))).mp hlt
  omega

/-- Two finite patterns of at least a quarter that differ by at most a quarter: the difference fits a significand, so `fsubx`
answers it exactly, and `+0` for no difference. -/
theorem fsubx_exact {a b : F64} (ha : isFinite a = true) (ha' : 1 / 4 ≤ |val a|) (hb' : 1 / 4 ≤ |val b|)
    (h : |val a - val b| ≤ 1 / 4) :
    isFinite (fsubx a b) = true ∧ val (fsubx a b) = val a - val b ∧ (val a = val b → fsubx a b = c0) := by
  have hea := le_sig_exp_of_quarter_le ha'
  have heb := le_sig_exp_of_quarter_le hb'
  have hhigh := sig_exp_le ha
  unfold fsubx
  obtain ⟨q, hq⟩ : ∃ q, q = min (sig a).2 (sig b).2 := ⟨_, rfl⟩
  obtain ⟨d, hd⟩ : ∃ d, d = scaledInt a q - scaledInt b q := ⟨_, rfl⟩
  have hdiff : val a - val b = d * 2 ^ q := by
    rw [← scaledInt_mul (show q ≤ (sig a).2 by omega), ← scaledInt_mul (show q ≤ (sig b).2 by omega), hd]
    push_cast; ring
  have hlt : d.natAbs < 2 ^ 53 := by
    have hpow : (2 : ℚ) ^ (-54 : ℤ) ≤ 2 ^ q := zpow_le_zpow_right₀ one_le_two (by omega)
    have hle : |(d : ℚ)| * 2 ^ q ≤ 1 / 4 := by
      rwa [hdiff, abs_mul, abs_of_pos (zpow_pos two_pos q : (0 : ℚ) < 2 ^ q)] at h
    have hq : |(d : ℚ)| * 2 ^ (-54 : ℤ) ≤ 1 / 4 := (mul_le_mul_of_nonneg_left hpow (abs_nonneg _)).trans hle
    have hd52 : |(d : ℚ)| ≤ 2 ^ 52 := by norm_num at hq ⊢; linarith
    have : (d.natAbs : ℤ) ≤ 2 ^ 52 := by rw [Int.natCast_natAbs]; exact_mod_cast hd52
    omega
  simp only [← hq, ← hd]
  split
  case isTrue h0 => exact ⟨rfl, by rw [hdiff, h0, val_c0]; simp, fun _ => rfl⟩
  case isFalse h0 =>
    obtain ⟨hfin, hsign, hval⟩ := encx_of_lt (if d < 0 then 1 else 0) hlt (show -1074 ≤ q by omega) (by omega)
    refine ⟨hfin, ?_, fun heq => absurd ?_ h0⟩
    · rw [val_eq_sign_mul_abs, hsign, hval, ← mul_assoc, neg_one_pow_of_sign_mul_natAbs, hdiff]
    · have : (d : ℚ) * 2 ^ q = 0 := by rw [← hdiff, heq, sub_self]
      exact_mod_cast (mul_eq_zero.mp this).resolve_right (zpow_ne_zero _ two_ne_zero)

/-! ## The cases of a reduced argument (R126) -/

/-- The rows of the table: a case and the magnitudes it applies to. -/
inductive Row (a : ℚ) : Sel → Prop
  | case0 (h : a = 0 ∨ a = 1) : Row a .case0
  | case1 (hlow : 0 < a) (hhigh : a < 1 / 4) : Row a .case1
  | case2 (hlow : 1 / 4 ≤ a) (hhigh : a < 3 / 4) : Row a .case2
  | case3 (hlow : 3 / 4 ≤ a) (hhigh : a < 5 / 4) (hne : a ≠ 1) : Row a .case3
  | case4 (hlow : 5 / 4 ≤ a) (hhigh : a < 7 / 4) : Row a .case4
  | case5 (hlow : 7 / 4 ≤ a) (hhigh : a < 2) : Row a .case5

/-- The case of a reduced argument is the row its magnitude lies in. -/
theorem row_caseOf {r : F64} (h : |val r| < 2) : Row |val r| (caseOf (fabs r)) := by
  rw [caseOf_eq_by_value, val_fabs, abs_abs]
  have h0 : 0 ≤ |val r| := abs_nonneg _
  generalize |val r| = a at h h0 ⊢
  split_ifs with hint h1 h2 h3 h4
  · exact .case0 hint
  · exact .case1 (lt_of_le_of_ne h0 fun hz => hint (.inl hz.symm)) h1
  · exact .case2 (not_lt.mp h1) h2
  · exact .case3 (not_lt.mp h2) h3 fun hz => hint (.inr hz)
  · exact .case4 (not_lt.mp h3) h4
  · exact .case5 (not_lt.mp h4) h

/-! ## The trig argument (R127, R130) -/

/-- Two patterns of one sign differ as their magnitudes do. -/
theorem val_copySign_sub_val (m r : F64) :
    val (copySign m r) - val r = (-1) ^ (signOf r).toNat * (|val m| - |val r|) := by
  rw [val_copySign, mul_sub, ← val_eq_sign_mul_abs]

theorem val_sub_val_copySign (m r : F64) :
    val r - val (copySign m r) = (-1) ^ (signOf r).toNat * (|val r| - |val m|) := by
  rw [← neg_sub, val_copySign_sub_val]; ring

theorem abs_sign_mul (s : BitVec 1) (v : ℚ) : |(-1) ^ s.toNat * v| = |v| := by
  rw [abs_mul, abs_pow, abs_neg, abs_one, one_pow, one_mul]

/-- The value of the trig argument, row by row, with `a` the magnitude of `r` and the sign of `r` on the odd rows. -/
def rowArg (s : BitVec 1) (a : ℚ) : Sel → ℚ
  | .case0 => 0
  | .case1 => (-1) ^ s.toNat * a
  | .case2 => 1 / 2 - a
  | .case3 => (-1) ^ s.toNat * (1 - a)
  | .case4 => a - 3 / 2
  | .case5 => (-1) ^ s.toNat * (a - 2)

/-- The trig argument of a finite pattern in a row has the value the row says exactly, and is `+0` when that is zero. -/
theorem trigArg_of_row {r : F64} {sel : Sel} (hr : isFinite r = true) (h : Row |val r| sel) :
    isFinite (trigArg sel r (fabs r)) = true ∧ val (trigArg sel r (fabs r)) = rowArg (signOf r) |val r| sel ∧
      (val (trigArg sel r (fabs r)) = 0 → trigArg sel r (fabs r) = c0) := by
  have hval : val r = (-1) ^ (signOf r).toNat * |val r| := val_eq_sign_mul_abs r
  cases h with
  | case0 => exact ⟨by rw [trigArg]; rfl, val_c0, fun _ => rfl⟩
  | case1 hlow hhigh => exact ⟨hr, hval, fun h0 => absurd (abs_eq_zero.mpr h0) hlow.ne'⟩
  | case2 hlow hhigh =>
    obtain ⟨hfin, heq, hzero⟩ := fsubx_exact (a := c05) (b := fabs r) rfl (by norm_num) (by simpa using hlow)
      (by rw [val_c05, val_fabs, abs_le]; constructor <;> linarith)
    exact ⟨hfin, by simpa [trigArg, rowArg] using heq, fun h0 => hzero (sub_eq_zero.mp (heq.symm.trans h0))⟩
  | case3 hlow hhigh hne =>
    have hdiff := val_copySign_sub_val c1 r
    obtain ⟨hfin, heq, hzero⟩ := fsubx_exact (a := copySign c1 r) (b := r) (by rw [isFinite_copySign]; rfl)
      (by rw [abs_val_copySign]; norm_num) (by linarith)
      (by rw [hdiff, abs_sign_mul, val_c1, abs_one, abs_le]; constructor <;> linarith)
    exact ⟨hfin, by rw [trigArg, heq, hdiff, val_c1, abs_one, rowArg], fun h0 => hzero (sub_eq_zero.mp (heq.symm.trans h0))⟩
  | case4 hlow hhigh =>
    obtain ⟨hfin, heq, hzero⟩ := fsubx_exact (a := fabs r) (b := c15) (by simpa using hr) (by rw [val_fabs, abs_abs]; linarith)
      (by norm_num) (by rw [val_c15, val_fabs, abs_le]; constructor <;> linarith)
    exact ⟨hfin, by simpa [trigArg, rowArg] using heq, fun h0 => hzero (sub_eq_zero.mp (heq.symm.trans h0))⟩
  | case5 hlow hhigh =>
    have hdiff := val_sub_val_copySign c2 r
    obtain ⟨hfin, heq, hzero⟩ := fsubx_exact (a := r) (b := copySign c2 r) hr (by linarith)
      (by rw [abs_val_copySign]; norm_num)
      (by rw [hdiff, abs_sign_mul, val_c2, abs_two, abs_le]; constructor <;> linarith)
    exact ⟨hfin, by rw [trigArg, heq, hdiff, val_c2, abs_two, rowArg], fun h0 => hzero (sub_eq_zero.mp (heq.symm.trans h0))⟩

/-- Every row's argument is at most a quarter (R130 (a)). -/
theorem abs_rowArg_le {a : ℚ} {sel : Sel} (s : BitVec 1) (h : Row a sel) : |rowArg s a sel| ≤ 1 / 4 := by
  cases h with
  | case0 => simp [rowArg]
  | case1 hlow hhigh => rw [rowArg, abs_sign_mul, abs_le]; constructor <;> linarith
  | case2 hlow hhigh => rw [rowArg, abs_le]; constructor <;> linarith
  | case3 hlow hhigh hne => rw [rowArg, abs_sign_mul, abs_le]; constructor <;> linarith
  | case4 hlow hhigh => rw [rowArg, abs_le]; constructor <;> linarith
  | case5 hlow hhigh => rw [rowArg, abs_sign_mul, abs_le]; constructor <;> linarith

/-- Off row 0 the argument is zero in the middle of rows 2 and 4 only (R130 (b)). -/
theorem rowArg_eq_zero_iff {a : ℚ} {sel : Sel} (s : BitVec 1) (h : Row a sel) (hne : sel ≠ .case0) :
    rowArg s a sel = 0 ↔ a = 1 / 2 ∨ a = 3 / 2 := by
  have hsign (v : ℚ) : (-1) ^ s.toNat * v = 0 ↔ v = 0 := by simp
  cases h with
  | case0 => exact absurd rfl hne
  | case1 hlow hhigh =>
    rw [rowArg, hsign]
    exact ⟨fun h => by linarith, fun h => by rcases h with h | h <;> linarith⟩
  | case2 hlow hhigh =>
    rw [rowArg]
    exact ⟨fun h => .inl (by linarith), fun h => by rcases h with h | h <;> linarith⟩
  | case3 hlow hhigh hone =>
    rw [rowArg, hsign]
    exact ⟨fun h => absurd (by linarith) hone, fun h => by rcases h with h | h <;> linarith⟩
  | case4 hlow hhigh =>
    rw [rowArg]
    exact ⟨fun h => .inr (by linarith), fun h => by rcases h with h | h <;> linarith⟩
  | case5 hlow hhigh =>
    rw [rowArg, hsign]
    exact ⟨fun h => by linarith, fun h => by rcases h with h | h <;> linarith⟩

/-- A pattern of sign 0 and the magnitude of `r` is `|r|`. -/
theorem fabs_eq_iff {r c : F64} (hc : signOf c = 0) : fabs r = c ↔ |val r| = val c := by
  rw [← val_fabs]
  refine ⟨fun h => h ▸ rfl, fun h => eq_of_signOf_abs_val ((signOf_fabs r).trans hc.symm) (congrArg abs h)⟩

section
variable {x : F64} (hx : isFinite x = true)
include hx

/-- The row of a finite operand. -/
theorem row_of_finite : Row |val (fmod2 x)| (caseOf (fabs (fmod2 x))) := row_caseOf (abs_val_fmod2_lt_two hx)

/-- The trig argument of a finite operand. -/
theorem isFinite_trigArg : isFinite (trigArg (caseOf (fabs (fmod2 x))) (fmod2 x) (fabs (fmod2 x))) = true :=
  have ⟨h, _⟩ := trigArg_of_row (isFinite_fmod2 hx) (row_of_finite hx); h

theorem val_trigArg : val (trigArg (caseOf (fabs (fmod2 x))) (fmod2 x) (fabs (fmod2 x))) =
    rowArg (signOf (fmod2 x)) |val (fmod2 x)| (caseOf (fabs (fmod2 x))) :=
  have ⟨_, h, _⟩ := trigArg_of_row (isFinite_fmod2 hx) (row_of_finite hx); h

theorem trigArg_eq_c0 (h : val (trigArg (caseOf (fabs (fmod2 x))) (fmod2 x) (fabs (fmod2 x))) = 0) :
    trigArg (caseOf (fabs (fmod2 x))) (fmod2 x) (fabs (fmod2 x)) = c0 :=
  have ⟨_, _, hzero⟩ := trigArg_of_row (isFinite_fmod2 hx) (row_of_finite hx); hzero h

theorem abs_val_trigArg_le : |val (trigArg (caseOf (fabs (fmod2 x))) (fmod2 x) (fabs (fmod2 x)))| ≤ 1 / 4 :=
  val_trigArg hx ▸ abs_rowArg_le _ (row_of_finite hx)

end

/-- Settles O35: each row's difference is exact, because both operands are at least a quarter and differ by at most one. -/
theorem trigArgumentIsTheExactDifference : Obligations.TrigArgumentIsTheExactDifference := by
  rintro x _ _ _ hx rfl rfl rfl
  refine ⟨isFinite_trigArg hx, fun h => trigArg_eq_c0 hx (isZero_iff.mp h), ?_⟩
  have hval := val_trigArg hx
  generalize caseOf (fabs (fmod2 x)) = sel at hval ⊢
  cases sel with
  | case0 | case1 => rfl
  | case2 | case4 => simpa [rowArg] using hval
  | case3 => rw [hval, rowArg, val_copySign_sub_val, val_c1, abs_one]
  | case5 => rw [hval, rowArg, val_sub_val_copySign, val_c2, abs_two]

/-- Settles O36: the bound and the zeros of each row. -/
theorem trigArgumentIsAtMostAQuarter : Obligations.TrigArgumentIsAtMostAQuarter := by
  rintro x _ _ _ hx rfl rfl rfl
  refine ⟨abs_val_trigArg_le hx, fun hne => ?_⟩
  rw [isZero_iff, val_trigArg hx, rowArg_eq_zero_iff _ (row_of_finite hx) hne, fabs_eq_iff rfl, fabs_eq_iff rfl, val_c05,
    val_c15]

end Sys2Proof.Machine
end

section
/-! SUPPORT. 42_range_reduction.md, section 4, and 00_scope.md R22: `mulPi` is the exact product rounded to the nearest pattern,
ties to even, and it is odd. -/

namespace Sys2Proof.Machine

/-! ## Rounding to the nearest natural (R22) -/

/-- `m` is a nearest natural to `v`, and even where `v` lies halfway between two. -/
def NearestEven (m : ℕ) (v : ℚ) : Prop := |m - v| ≤ 1 / 2 ∧ (|m - v| = 1 / 2 → m % 2 = 0)

theorem nearestEven_self (m : ℕ) : NearestEven m m := by
  simp [NearestEven]

/-- Rounding down at no more than a half, the half only to an even number. -/
theorem nearestEven_down {c : ℕ} {f : ℚ} (h0 : 0 ≤ f) (h : f < 1 / 2 ∨ f = 1 / 2 ∧ c % 2 = 0) : NearestEven c (c + f) := by
  have hdist : |(c : ℚ) - (c + f)| = f := by rw [sub_add_cancel_left, abs_neg, abs_of_nonneg h0]
  rw [NearestEven, hdist]
  rcases h with h | ⟨h, heven⟩
  · exact ⟨h.le, fun heq => absurd heq h.ne⟩
  · exact ⟨h.le, fun _ => heven⟩

/-- Rounding up at no less than a half, the half only from an odd number. -/
theorem nearestEven_up {c : ℕ} {f : ℚ} (h1 : f < 1) (h : 1 / 2 < f ∨ f = 1 / 2 ∧ c % 2 = 1) :
    NearestEven (c + 1) (c + f) := by
  have hdist : |((c + 1 : ℕ) : ℚ) - (c + f)| = 1 - f := by
    rw [Nat.cast_add_one, add_sub_add_left_eq_sub, abs_of_pos (by linarith)]
  rw [NearestEven, hdist]
  rcases h with h | ⟨h, hodd⟩
  · exact ⟨by linarith, fun heq => by linarith⟩
  · exact ⟨by linarith, fun _ => by omega⟩

/-- The rounding step answers a nearest natural, ties to even. -/
theorem nearestEven_roundShift (n : ℕ) (sh : ℤ) : NearestEven (roundShift n sh) (n * 2 ^ (-sh)) := by
  rcases le_or_gt sh 0 with h | h
  · obtain ⟨k, hk⟩ := Int.eq_ofNat_of_zero_le (neg_nonneg.mpr h)
    rw [roundShift, if_pos h, hk, Int.toNat_natCast, zpow_natCast]
    exact_mod_cast nearestEven_self (n * 2 ^ k)
  · obtain ⟨k, rfl⟩ : ∃ k : ℕ, sh = (k + 1 : ℕ) := ⟨(sh - 1).toNat, by omega⟩
    have hpos : (0 : ℚ) < 2 ^ (k + 1) := by positivity
    have hmod : n % 2 ^ (k + 1) < 2 ^ (k + 1) := Nat.mod_lt _ (by positivity)
    obtain ⟨f, hf⟩ : ∃ f : ℚ, f = (n % 2 ^ (k + 1) : ℕ) / 2 ^ (k + 1) := ⟨_, rfl⟩
    have hsplit : (n : ℚ) * 2 ^ (-((k + 1 : ℕ) : ℤ)) = (n / 2 ^ (k + 1) : ℕ) + f := by
      have hdiv : (n : ℚ) = 2 ^ (k + 1) * (n / 2 ^ (k + 1) : ℕ) + (n % 2 ^ (k + 1) : ℕ) :=
        mod_cast (Nat.div_add_mod n (2 ^ (k + 1))).symm
      rw [zpow_neg, zpow_natCast, ← div_eq_mul_inv, hf, div_eq_iff hpos.ne', add_mul, div_mul_cancel₀ _ hpos.ne', mul_comm]
      exact hdiv
    have hf0 : 0 ≤ f := hf ▸ by positivity
    have hf1 : f < 1 := by rw [hf, div_lt_one hpos]; exact_mod_cast hmod
    have hhalf : (1 / 2 : ℚ) * 2 ^ (k + 1) = (2 ^ k : ℕ) := by rw [pow_succ]; push_cast; ring
    have hlt : 1 / 2 < f ↔ 2 ^ k < n % 2 ^ (k + 1) := by
      rw [hf, lt_div_iff₀ hpos, hhalf]; norm_cast
    have heq : f = 1 / 2 ↔ n % 2 ^ (k + 1) = 2 ^ k := by
      rw [hf, div_eq_iff hpos.ne', hhalf]; norm_cast
    rw [hsplit, roundShift, if_neg (by omega), Int.toNat_natCast, Nat.add_sub_cancel]
    simp only [← hlt, ← heq]
    split
    case isTrue hup => exact nearestEven_up hf1 hup
    case isFalse hdown =>
      obtain ⟨hle, hodd⟩ := not_or.mp hdown
      refine nearestEven_down hf0 ((not_lt.mp hle).lt_or_eq.imp_right fun h => ⟨h, ?_⟩)
      have := not_and.mp hodd h; omega

namespace NearestEven

variable {m : ℕ} {v : ℚ} (h : NearestEven m v)
include h

/-- No integer is nearer, and one that is as near is the same or leaves `m` even. -/
theorem le_dist (j : ℤ) : |m - v| ≤ |j - v| ∧ (|m - v| = |j - v| → j = m ∨ m % 2 = 0) := by
  obtain ⟨hhalf, heven⟩ := h
  rcases eq_or_ne j m with rfl | hne
  · exact ⟨le_rfl, fun _ => .inl rfl⟩
  · have hone : (1 : ℚ) ≤ |(j : ℚ) - m| := mod_cast Int.one_le_abs (sub_ne_zero.mpr hne)
    have htri : |(j : ℚ) - m| ≤ |j - v| + |m - v| := by
      rw [abs_sub_comm (m : ℚ) v]; exact abs_sub_le _ _ _
    exact ⟨by linarith, fun heq => .inr (heven (by linarith))⟩

/-- No number is nearer that is an integer, or that an integer separates from `v`. -/
theorem le_dist_of {w : ℚ} {j : ℤ} (hw : w = j ∨ w < j ∧ j ≤ v) :
    |m - v| ≤ |w - v| ∧ (|m - v| = |w - v| → w = m ∨ m % 2 = 0) := by
  obtain ⟨hle, htie⟩ := h.le_dist j
  rcases hw with rfl | ⟨hlt, hjv⟩
  · exact ⟨hle, fun heq => (htie heq).imp_left fun hj => by rw [hj, Int.cast_natCast]⟩
  · have hfar : |j - v| < |w - v| := by
      rw [abs_of_nonpos (by linarith), abs_of_neg (by linarith)]; linarith
    exact ⟨hle.trans hfar.le, fun heq => absurd heq (hle.trans_lt hfar).ne⟩

theorem le_of_le {k : ℕ} (hk : v ≤ k) : m ≤ k := by
  have hlt : (m : ℚ) < k + 1 := by linarith [(abs_le.mp h.1).2]
  have : m < k + 1 := by exact_mod_cast hlt
  omega

theorem ge_of_ge {k : ℕ} (hk : (k : ℚ) ≤ v) : k ≤ m := by
  have hlt : (k : ℚ) < m + 1 := by linarith [(abs_le.mp h.1).1]
  have : k < m + 1 := by exact_mod_cast hlt
  omega

end NearestEven

/-! ## The rounded pattern (R22) -/

/-- The significand `rne` rounds to, before a carry out of 53 bits is brought back. -/
def roundedSig (n : ℕ) (q : ℤ) : ℕ := roundShift n (targetExp (bitLen n) q - q)

/-- The magnitude `rne` rounds to. -/
def roundedVal (n : ℕ) (q : ℤ) : ℚ := roundedSig n q * 2 ^ targetExp (bitLen n) q

/-- The significand is a nearest natural to the magnitude in units of the target exponent. -/
theorem nearestEven_roundedSig (n : ℕ) (q : ℤ) : NearestEven (roundedSig n q) (n * 2 ^ (q - targetExp (bitLen n) q)) := by
  have h := nearestEven_roundShift n (targetExp (bitLen n) q - q)
  rwa [neg_sub] at h

theorem roundedSig_le (n : ℕ) (q : ℤ) : roundedSig n q ≤ 2 ^ 53 := by
  refine (nearestEven_roundedSig n q).le_of_le ?_
  have hn : (n : ℚ) ≤ 2 ^ (bitLen n : ℤ) := by rw [zpow_natCast]; exact_mod_cast (lt_two_pow_bitLen n).le
  calc (n : ℚ) * 2 ^ (q - targetExp (bitLen n) q) ≤ 2 ^ (bitLen n : ℤ) * 2 ^ (q - targetExp (bitLen n) q) := by gcongr
    _ = 2 ^ (bitLen n + (q - targetExp (bitLen n) q)) := (zpow_add₀ two_ne_zero _ _).symm
    _ ≤ 2 ^ (53 : ℤ) := zpow_le_zpow_right₀ one_le_two (by unfold targetExp; omega)
    _ = (2 ^ 53 : ℕ) := by norm_num

/-- Above the least exponent the magnitude has 53 bits in units of the target exponent. -/
theorem two_pow_52_le {n : ℕ} {q : ℤ} (hn : n ≠ 0) (he : targetExp (bitLen n) q ≠ -1074) :
    ((2 ^ 52 : ℕ) : ℚ) ≤ n * 2 ^ (q - targetExp (bitLen n) q) := by
  have hpos := bitLen_pos hn
  have hlow : (2 : ℚ) ^ ((bitLen n - 1 : ℕ) : ℤ) ≤ n := by rw [zpow_natCast]; exact_mod_cast two_pow_bitLen_le hn
  calc ((2 ^ 52 : ℕ) : ℚ) = 2 ^ (52 : ℤ) := by norm_num
    _ = 2 ^ (((bitLen n - 1 : ℕ) : ℤ) + (q - targetExp (bitLen n) q)) := by congr 1; unfold targetExp at he ⊢; omega
    _ = 2 ^ ((bitLen n - 1 : ℕ) : ℤ) * 2 ^ (q - targetExp (bitLen n) q) := zpow_add₀ two_ne_zero _ _
    _ ≤ n * 2 ^ (q - targetExp (bitLen n) q) := by gcongr

theorem two_pow_52_le_roundedSig {n : ℕ} {q : ℤ} (hn : n ≠ 0) (he : targetExp (bitLen n) q ≠ -1074) :
    2 ^ 52 ≤ roundedSig n q :=
  (nearestEven_roundedSig n q).ge_of_ge (two_pow_52_le hn he)

theorem frac_packSig_even (s : BitVec 1) {m : ℕ} (e : ℤ) (h : m % 2 = 0) : (frac (packSig s m e)).getLsbD 0 = false := by
  have hbit : (BitVec.ofNat 52 m).getLsbD 0 = false := by
    rw [BitVec.getLsbD_ofNat, Nat.testBit_zero, h]; rfl
  unfold packSig
  split
  · rw [frac_packF64, hbit]
  · rw [frac_packF64, hbit]

/-- What `rne` answers, as long as the target exponent keeps it from an overflow: a finite pattern of the sign, whose
magnitude is the rounded significand, and whose fraction is even with it. -/
theorem rne_spec (s : BitVec 1) {n : ℕ} {q : ℤ} (hn : n ≠ 0) (he : targetExp (bitLen n) q ≤ 970) :
    isFinite (rne s n q) = true ∧ signOf (rne s n q) = s ∧
      |val (rne s n q)| = roundedVal n q ∧
      (roundedSig n q % 2 = 0 → (frac (rne s n q)).getLsbD 0 = false) := by
  have hle := roundedSig_le n q
  have hge := two_pow_52_le_roundedSig (q := q) hn
  have hlow : -1074 ≤ targetExp (bitLen n) q := le_max_right _ _
  have hrne : rne s n q = if roundedSig n q = 2 ^ 53 then packSig s (2 ^ 52) (targetExp (bitLen n) q + 1)
      else packSig s (roundedSig n q) (targetExp (bitLen n) q) := by
    rw [rne, ← roundedSig]
    split
    · rw [if_neg (by omega)]
    · rw [if_neg (by omega)]
  rw [hrne, roundedVal]
  generalize roundedSig n q = m at hle hge ⊢
  split
  case isTrue hm =>
    refine ⟨isFinite_packSig s (by omega) (by omega), signOf_packSig s _ _, ?_, fun _ => frac_packSig_even s _ (by norm_num)⟩
    rw [abs_val, sig_packSig s (by norm_num) (by omega) (by omega) (by norm_num), hm, zpow_add_one₀ two_ne_zero]
    push_cast; ring
  case isFalse hm =>
    refine ⟨isFinite_packSig s hlow (by omega), signOf_packSig s _ _, ?_, frac_packSig_even s _⟩
    rw [abs_val, sig_packSig s (by omega) hlow (by omega) (fun hsmall => by by_contra hne; have := hge hne; omega)]

/-- In units of `2^e` the magnitude of a pattern is an integer, or below every normal significand. -/
theorem abs_val_in_units (y : F64) (e : ℤ) : (∃ j : ℤ, |val y| = j * 2 ^ e) ∨ (sig y).2 < e ∧ |val y| < 2 ^ 52 * 2 ^ e := by
  rcases le_or_gt e (sig y).2 with hy | hy
  · obtain ⟨k, hk⟩ := Int.eq_ofNat_of_zero_le (sub_nonneg.mpr hy)
    refine .inl ⟨((sig y).1 * 2 ^ k : ℕ), ?_⟩
    rw [abs_val, show (sig y).2 = k + e by omega, zpow_add₀ two_ne_zero, zpow_natCast]
    push_cast; ring
  · have hsig : ((sig y).1 : ℚ) < 2 ^ (53 : ℤ) := mod_cast sig_lt y
    refine .inr ⟨hy, ?_⟩
    calc |val y| = (sig y).1 * 2 ^ (sig y).2 := abs_val y
      _ < 2 ^ (53 : ℤ) * 2 ^ (sig y).2 := by gcongr
      _ = 2 ^ (53 + (sig y).2) := (zpow_add₀ two_ne_zero _ _).symm
      _ ≤ 2 ^ (52 + e) := zpow_le_zpow_right₀ one_le_two (by omega)
      _ = 2 ^ 52 * 2 ^ e := by rw [zpow_add₀ two_ne_zero]; rfl

/-- No magnitude of a pattern is nearer to `N * 2^q` than the rounded one: at the target exponent or above it is a multiple
of the unit, and below it the least normal significand lies between. -/
theorem roundedVal_nearest {n : ℕ} {q : ℤ} (hn : n ≠ 0) (y : F64) :
    |roundedVal n q - n * 2 ^ q| ≤ |(|val y| - n * 2 ^ q)| ∧
      (|roundedVal n q - n * 2 ^ q| = |(|val y| - n * 2 ^ q)| → |val y| = roundedVal n q ∨ roundedSig n q % 2 = 0) := by
  have hnear := nearestEven_roundedSig n q
  have hge := two_pow_52_le (q := q) hn
  unfold roundedVal
  generalize roundedSig n q = m at hnear ⊢
  generalize targetExp (bitLen n) q = e at hnear hge ⊢
  have hunit : (0 : ℚ) < 2 ^ e := zpow_pos two_pos e
  have hdist (w : ℚ) : |w * 2 ^ e - n * 2 ^ q| = |w - n * 2 ^ (q - e)| * 2 ^ e := by
    rw [← sub_add_cancel q e, zpow_add₀ two_ne_zero, sub_add_cancel, ← mul_assoc, ← sub_mul, abs_mul, abs_of_pos hunit]
  obtain ⟨w, hw⟩ : ∃ w, |val y| = w * 2 ^ e := ⟨_, (div_mul_cancel₀ _ hunit.ne').symm⟩
  have hunits : ∃ j : ℤ, w = j ∨ w < j ∧ j ≤ (n : ℚ) * 2 ^ (q - e) := by
    rcases abs_val_in_units y e with ⟨j, hj⟩ | ⟨hy, hlt⟩
    · exact ⟨j, .inl (mul_right_cancel₀ hunit.ne' (hw.symm.trans hj))⟩
    · have hlow := le_sig_exp y
      refine ⟨(2 ^ 52 : ℕ), .inr ⟨?_, hge (by omega)⟩⟩
      exact_mod_cast lt_of_mul_lt_mul_right (hw ▸ hlt) hunit.le
  obtain ⟨j, hj⟩ := hunits
  obtain ⟨hle, htie⟩ := hnear.le_dist_of hj
  rw [hw, hdist, hdist]
  exact ⟨mul_le_mul_of_nonneg_right hle hunit.le,
    fun heq => (htie (mul_right_cancel₀ hunit.ne' heq)).imp_left fun h => by rw [h]⟩

/-! ## The rounded product (R129) -/

theorem mulPi_of_isZero {t : F64} (h : isZero t = true) : mulPi t = t := by
  rw [mulPi, if_pos h]

theorem mulPi_of_not_isZero {t : F64} (h : isZero t = false) :
    mulPi t = rne (signOf t) (piSig * (sig t).1) ((sig t).2 - 51) := by
  rw [mulPi, if_neg (by simp [h])]

/-- The integers `mulPi` rounds write the exact product. -/
theorem exact_product (t : F64) : ((piSig * (sig t).1 : ℕ) : ℚ) * 2 ^ ((sig t).2 - 51) = val pi64 * |val t| := by
  rw [abs_val, val_pi64, sub_eq_add_neg, zpow_add₀ two_ne_zero]; push_cast; ring

theorem val_pi64_bounds : 3 < val pi64 ∧ val pi64 < 4 := by
  rw [val_pi64, piSig]; norm_num

/-- A magnitude of at most 1 is far from an overflow. -/
theorem targetExp_le_of_le_one {n : ℕ} {q : ℤ} (hn : n ≠ 0) (h : (n : ℚ) * 2 ^ q ≤ 1) :
    targetExp (bitLen n) q ≤ 970 := by
  have hpos := bitLen_pos hn
  have hlow : (2 : ℚ) ^ ((bitLen n - 1 : ℕ) : ℤ) ≤ n := by rw [zpow_natCast]; exact_mod_cast two_pow_bitLen_le hn
  have hle : (2 : ℚ) ^ (((bitLen n - 1 : ℕ) : ℤ) + q) ≤ 2 ^ (0 : ℤ) := by
    calc (2 : ℚ) ^ (((bitLen n - 1 : ℕ) : ℤ) + q) = 2 ^ ((bitLen n - 1 : ℕ) : ℤ) * 2 ^ q := zpow_add₀ two_ne_zero _ _
      _ ≤ n * 2 ^ q := by gcongr
      _ ≤ 2 ^ (0 : ℤ) := h
  have := (zpow_le_zpow_iff_right₀ (one_lt_two (α := ℚ))).mp hle
  unfold targetExp; omega

/-- Where `u` lies on the side of `p`, their magnitudes tell how near `u` is, and for any other `y` they tell how near it is at
least; a `y` of the magnitude of `u` is as near only where it is `u`. -/
theorem nearest_of_abs_nearest {u p y : ℚ} (hside : 0 ≤ u * p) (hp : p ≠ 0) (h : |(|u| - |p|)| ≤ |(|y| - |p|)|) :
    |u - p| ≤ |y - p| ∧ (|u - p| = |y - p| → |(|u| - |p|)| = |(|y| - |p|)| ∧ (|y| = |u| → y = u)) := by
  have hu : |u - p| = |(|u| - |p|)| := by
    rcases lt_or_gt_of_ne hp with hneg | hpos
    · rw [abs_of_neg hneg, abs_of_nonpos (nonpos_of_mul_nonneg_left hside hneg), neg_sub_neg, abs_sub_comm]
    · rw [abs_of_pos hpos, abs_of_nonneg (nonneg_of_mul_nonneg_left hside hpos)]
  have hy : |(|y| - |p|)| ≤ |y - p| := abs_abs_sub_abs_le y p
  refine ⟨by linarith, fun heq => ⟨by linarith, fun hmag => ?_⟩⟩
  rcases abs_eq_abs.mp hmag with hsame | hopp
  · exact hsame
  · rw [hopp] at heq ⊢
    rcases abs_eq_abs.mp heq with h | h
    · linarith
    · exact absurd (by linarith) hp

/-- What `mulPi` answers for an argument of magnitude at most a quarter (R130): a finite pattern of its sign, none is nearer
to the exact product, and one of another value is as near only where the fraction is even. -/
theorem mulPi_spec {t : F64} (ht : isFinite t = true) (hle : |val t| ≤ 1 / 4) :
    isFinite (mulPi t) = true ∧ signOf (mulPi t) = signOf t ∧
      ∀ y : F64, |val (mulPi t) - val pi64 * val t| ≤ |val y - val pi64 * val t| ∧
        (|val (mulPi t) - val pi64 * val t| = |val y - val pi64 * val t| →
          val y = val (mulPi t) ∨ (frac (mulPi t)).getLsbD 0 = false) := by
  obtain ⟨hpi3, hpi4⟩ := val_pi64_bounds
  cases hz : isZero t with
  | true =>
    rw [mulPi_of_isZero hz, isZero_iff.mp hz, mul_zero, sub_self, abs_zero]
    refine ⟨ht, rfl, fun y => ⟨abs_nonneg _, fun heq => .inl ?_⟩⟩
    simpa using heq.symm
  | false =>
    have hne : val t ≠ 0 := fun h => by simp [isZero_iff.mpr h] at hz
    have hprod := exact_product t
    have hn : piSig * (sig t).1 ≠ 0 := Nat.mul_ne_zero (by decide) (mt sig_eq_zero_iff.mp hne)
    have hone : ((piSig * (sig t).1 : ℕ) : ℚ) * 2 ^ ((sig t).2 - 51) ≤ 1 := by rw [hprod]; nlinarith [abs_nonneg (val t)]
    rw [mulPi_of_not_isZero hz]
    generalize piSig * (sig t).1 = n at hn hone hprod ⊢
    generalize (sig t).2 - 51 = q at hone hprod ⊢
    obtain ⟨hfin, hsign, hval, heven⟩ := rne_spec (signOf t) hn (targetExp_le_of_le_one hn hone)
    have habs : |val pi64 * val t| = n * 2 ^ q := by rw [abs_mul, abs_of_pos (by linarith), hprod]
    have hside : 0 ≤ val (rne (signOf t) n q) * (val pi64 * val t) := by
      have hpi : 0 ≤ val pi64 := by linarith
      rw [mul_left_comm, val_mul_val_of_signOf_eq hsign]; positivity
    refine ⟨hfin, hsign, fun y => ?_⟩
    obtain ⟨hnear, htie⟩ := roundedVal_nearest (q := q) hn y
    rw [← hval, ← habs] at hnear htie
    obtain ⟨hle', htie'⟩ := nearest_of_abs_nearest hside (mul_ne_zero (by linarith) hne) hnear
    refine ⟨hle', fun heq => ?_⟩
    obtain ⟨hmag, heq'⟩ := htie' heq
    exact (htie hmag).imp heq' heven

/-- Settles O37: the exact product in integers, rounded to the nearest magnitude, which no finite pattern is nearer to. -/
theorem mulPiIsTheNearestProduct : Obligations.MulPiIsTheNearestProduct := by
  intro t y ht hle _
  obtain ⟨hfin, hsign, hnear⟩ := mulPi_spec ht hle
  exact ⟨hfin, hsign, hnear y⟩

/-! ## Oddness (R129) -/

theorem fneg_packF64 (s : BitVec 1) (e : BitVec 11) (f : BitVec 52) : fneg (packF64 s e f) = packF64 (~~~s) e f :=
  f64_ext (by simp) (by simp) (by simp)

theorem fneg_packSig (s : BitVec 1) (m : ℕ) (e : ℤ) : fneg (packSig s m e) = packSig (~~~s) m e := by
  unfold packSig
  split
  · exact fneg_packF64 _ _ _
  · exact fneg_packF64 _ _ _

/-- The rounding does not look at the sign. -/
theorem fneg_rne (s : BitVec 1) (n : ℕ) (q : ℤ) : fneg (rne s n q) = rne (~~~s) n q := by
  simp only [rne, apply_ite fneg, fneg_packF64, fneg_packSig]

/-- A change of sign passes through `mulPi`, for every pattern. -/
theorem mulPi_fneg (t : F64) : mulPi (fneg t) = fneg (mulPi t) := by
  cases hz : isZero t with
  | true => rw [mulPi_of_isZero hz, mulPi_of_isZero (by rw [isZero_fneg, hz])]
  | false =>
    rw [mulPi_of_not_isZero hz, mulPi_of_not_isZero (by rw [isZero_fneg, hz]), fneg_rne, signOf_fneg, sig_fneg]

/-- Settles O38: a zero is answered as it is, and the rounding does not look at the sign. -/
theorem mulPiIsOdd : Obligations.MulPiIsOdd := fun t _ => ⟨mulPi_of_isZero, mulPi_fneg t⟩

/-! ## The trig request (R130) -/

/-- The bound of R130 (c). -/
theorem val_quarter_pi : val 0x3FE921FB54442D18#64 = val pi64 / 4 := by
  rw [val_pi64, val_of_sig (m := piSig) (e := -53) rfl rfl]; norm_num; ring

/-- Rounding is monotone at a quarter of `PI64`, which is a pattern. -/
theorem abs_val_mulPi_le {t : F64} (ht : isFinite t = true) (hle : |val t| ≤ 1 / 4) :
    |val (mulPi t)| ≤ val pi64 / 4 := by
  obtain ⟨hpi3, -⟩ := val_pi64_bounds
  obtain ⟨-, hsign, hnear⟩ := mulPi_spec ht hle
  obtain ⟨hdist, -⟩ := hnear (copySign 0x3FE921FB54442D18#64 t)
  have hbound : |val pi64 / 4| = val pi64 / 4 := abs_of_pos (by linarith)
  have hdiff (w : ℚ) : |(-1) ^ (signOf t).toNat * w - val pi64 * val t| = |(w - val pi64 * |val t|)| := by
    rw [val_eq_sign_mul_abs t, abs_sign_mul, abs_abs, mul_left_comm, ← mul_sub, abs_sign_mul]
  rw [val_copySign, val_quarter_pi, hbound, val_eq_sign_mul_abs (mulPi t), hsign, hdiff, hdiff,
    abs_of_nonneg (show 0 ≤ val pi64 / 4 - val pi64 * |val t| by nlinarith)] at hdist
  linarith [(abs_le.mp hdist).2]

/-- No other argument than a zero is rounded to zero: its own pattern is nearer to the product. -/
theorem isZero_mulPi {t : F64} (ht : isFinite t = true) (hle : |val t| ≤ 1 / 4) : isZero (mulPi t) = isZero t := by
  rw [Bool.eq_iff_iff, isZero_iff, isZero_iff]
  constructor
  · intro hzero
    obtain ⟨hpi3, -⟩ := val_pi64_bounds
    obtain ⟨-, -, hnear⟩ := mulPi_spec ht hle
    obtain ⟨hdist, -⟩ := hnear t
    rw [hzero, zero_sub, abs_neg, show val t - val pi64 * val t = -((val pi64 - 1) * val t) by ring, abs_neg, abs_mul, abs_mul,
      abs_of_pos (by linarith), abs_of_pos (show 0 < val pi64 - 1 by linarith)] at hdist
    exact abs_nonpos_iff.mp (by linarith)
  · intro hzero
    rw [mulPi_of_isZero (isZero_iff.mpr hzero), hzero]

/-- Settles O39: the argument is at most a quarter, and the product keeps its zeros and the bound. -/
theorem trigRequestIsBounded : Obligations.TrigRequestIsBounded := by
  rintro x _ _ _ hx rfl rfl rfl
  have ht := isFinite_trigArg hx
  have hle := abs_val_trigArg_le hx
  exact ⟨(mulPi_spec ht hle).1, isZero_mulPi ht hle, val_quarter_pi ▸ abs_val_mulPi_le ht hle⟩

end Sys2Proof.Machine
end

section
/-! SUPPORT. 42_range_reduction.md, sections 5 to 7: the fix-up, the next state of RRD and SINPI on each class of operand, and
the properties that follow for integers, for operands of opposite sign and for operands an even integer apart. -/

namespace Sys2Proof.Machine

/-! ## The fix-up (R132) -/

theorem fixup_case4 (r p : F64) : fixup .case4 r p = copySign p (fneg r) := fneg_copySign p r

/-- Settles O40: a sign copy is a sign above the other bits, and its negation copies the negated sign. -/
theorem fixupSetsTheSign : Obligations.FixupSetsTheSign := by
  intro r p
  have hneg : fixup .case4 r p = ~~~(signOf r) ++ magBits p := by
    rw [fixup_case4, copySign_eq_append, signOf_fneg]
  exact ⟨rfl, rfl, rfl, copySign_eq_append c0 r, rfl, rfl, rfl, copySign_eq_append p r, hneg, fixup_case4 r p⟩

/-- Off case 0 the fix-up leaves the magnitude of the answer (R131). -/
theorem fixup_magnitude {sel : Sel} (h : sel ≠ .case0) (r p : F64) :
    isFinite (fixup sel r p) = isFinite p ∧ |val (fixup sel r p)| = |val p| := by
  cases sel with
  | case0 => exact absurd rfl h
  | case1 | case3 | case5 => exact ⟨rfl, rfl⟩
  | case2 => exact ⟨isFinite_copySign p r, abs_val_copySign p r⟩
  | case4 => rw [fixup_case4]; exact ⟨isFinite_copySign p _, abs_val_copySign p _⟩

/-- In the cases of no sine the fix-up passes the sign of `r` on (R136). -/
theorem fixup_fneg {sel : Sel} (h : sel = .case0 ∨ sel = .case2 ∨ sel = .case4) (r p : F64) :
    fixup sel (fneg r) p = fneg (fixup sel r p) := by
  rcases h with rfl | rfl | rfl
  · exact (fneg_copySign c0 r).symm
  · exact (fneg_copySign p r).symm
  · exact congrArg fneg (fneg_copySign p r).symm

/-! ## The next state of RRD (R133) -/

theorem isNaN_eq_false_of_isFinite {x : F64} (hx : isFinite x = true) : isNaN x = false := by
  cases h : isNaN x with
  | false => rfl
  | true => exact absurd hx (by rw [isFinite_eq_false_of_isNaN h]; decide)

theorem isInf_eq_false_of_isFinite {x : F64} (hx : isFinite x = true) : isInf x = false := by
  cases h : isInf x with
  | false => rfl
  | true => exact absurd hx (by rw [isFinite_eq_false_of_isInf h]; decide)

theorem exec_rrd_of_isNaN {x : F64} (h : isNaN x = true) (s : State) :
    exec (.rrd x) s = .next (s.withOutputs { Response.zero with cls := .nan } TrigOut.idle) := by
  rw [exec, execRrd, if_pos h, respond]

theorem exec_rrd_of_isInf {x : F64} (h : isInf x = true) (s : State) :
    exec (.rrd x) s = .next (s.withOutputs (faultResponse .invalidArgument x) TrigOut.idle) := by
  have hn : ¬ isNaN x = true := fun hn => by simp [isInf_eq_false_of_isNaN hn] at h
  rw [exec, execRrd, if_neg hn, if_pos h, raise, respond]

theorem exec_rrd_of_finite {x : F64} (h : isFinite x = true) (s : State) :
    exec (.rrd x) s = .next (s.withOutputs
      { Response.zero with
        r := fmod2 x, sel := caseOf (fabs (fmod2 x)), prim := primOf (caseOf (fabs (fmod2 x))),
        t := trigArg (caseOf (fabs (fmod2 x))) (fmod2 x) (fabs (fmod2 x)) } TrigOut.idle) := by
  rw [exec, execRrd, if_neg (by simp [isNaN_eq_false_of_isFinite h]), if_neg (by simp [isInf_eq_false_of_isFinite h]), respond]

/-- Settles O41: one next state for each class of operand, by the output ports alone. -/
theorem rrdClassifiesAndDispatches : Obligations.RrdClassifiesAndDispatches :=
  ⟨fun _ _ => rfl, fun _ s =>
    ⟨fun h => exec_rrd_of_isNaN h s, fun h => exec_rrd_of_isInf h s, fun h => exec_rrd_of_finite h s⟩⟩

/-! ## The next state of SINPI (R131, R134) -/

theorem exec_sinpi_of_isNaN {x : F64} (h : isNaN x = true) (s : State) :
    exec (.sinpi x) s = .next (s.withOutputs { Response.zero with y := nanOut } TrigOut.idle) := by
  rw [exec, execSinpi, if_pos h, respond]

theorem exec_sinpi_of_isInf {x : F64} (h : isInf x = true) (s : State) :
    exec (.sinpi x) s = .next (s.withOutputs (faultResponse .invalidArgument x) TrigOut.idle) := by
  have hn : ¬ isNaN x = true := fun hn => by simp [isInf_eq_false_of_isNaN hn] at h
  rw [exec, execSinpi, if_neg hn, if_pos h, raise, respond]

section
variable {x : F64} (hx : isFinite x = true)
include hx

theorem exec_sinpi_of_case0 (h : caseOf (fabs (fmod2 x)) = .case0) (s : State) :
    exec (.sinpi x) s = .next (s.withOutputs { Response.zero with y := copySign c0 (fmod2 x) } TrigOut.idle) := by
  rw [exec, execSinpi, if_neg (by simp [isNaN_eq_false_of_isFinite hx]), if_neg (by simp [isInf_eq_false_of_isFinite hx])]
  dsimp only
  rw [if_pos h, respond]

theorem exec_sinpi_of_ne_case0 (h : caseOf (fabs (fmod2 x)) ≠ .case0) (s : State) :
    exec (.sinpi x) s =
      exchange (primOf (caseOf (fabs (fmod2 x)))) (mulPi (trigArg (caseOf (fabs (fmod2 x))) (fmod2 x) (fabs (fmod2 x))))
        (fun p => { Response.zero with y := fixup (caseOf (fabs (fmod2 x))) (fmod2 x) p }) s := by
  rw [exec, execSinpi, if_neg (by simp [isNaN_eq_false_of_isFinite hx]), if_neg (by simp [isInf_eq_false_of_isFinite hx])]
  dsimp only
  rw [if_neg h]

/-- The answer to a finite operand: the fix-up of what stands on `TP` afterwards, which off case 0 is the answer to the one
trig request. -/
theorem exec_sinpi_of_finite (s : State) :
    ∃ t, exec (.sinpi x) s = .next t ∧
      t.rsp = { Response.zero with y := fixup (caseOf (fabs (fmod2 x))) (fmod2 x) t.inp.tp } ∧
      (caseOf (fabs (fmod2 x)) ≠ .case0 → t.trig.treq = true ∧
        t.inp.tp = trigAnswer s.cfg (primOf (caseOf (fabs (fmod2 x))))
          (mulPi (trigArg (caseOf (fabs (fmod2 x))) (fmod2 x) (fabs (fmod2 x)))) s.inp.tp) := by
  by_cases h0 : caseOf (fabs (fmod2 x)) = .case0
  · exact ⟨_, exec_sinpi_of_case0 hx h0 s, by rw [h0]; rfl, fun h => absurd h0 h⟩
  · exact ⟨_, exec_sinpi_of_ne_case0 hx h0 s, rfl, fun _ => ⟨rfl, rfl⟩⟩

end

/-- The answer to a request of one of the cases 1 to 5. -/
theorem trigAnswer_primOf {sel : Sel} (h : sel ≠ .case0) (p : Config.Params) (u tp : F64) :
    trigAnswer p (primOf sel) u tp =
      if p.trigAttached then (if primOf sel = .sin then Config.sin64 u else Config.cos64 u) else tp := by
  cases sel with
  | case0 => exact absurd rfl h
  | case1 | case2 | case3 | case4 | case5 => rfl

/-- Settles O42: one next state for each class of operand; off case 0 it is that of the exchange. -/
theorem sinpiAnswersThroughTheTrigPort : Obligations.SinpiAnswersThroughTheTrigPort := by
  refine ⟨fun _ _ => rfl, fun x s => ⟨fun h => exec_sinpi_of_isNaN h s, fun h => exec_sinpi_of_isInf h s,
    fun hx h => exec_sinpi_of_case0 hx h s, ?_⟩⟩
  rintro _ u p hx rfl hne rfl rfl
  rw [exec_sinpi_of_ne_case0 hx hne, exchange, trigAnswer_primOf hne]
  rfl

/-- Settles O43: the answer of the attached trig unit goes through the fix-up of the row. -/
theorem sinpiComputesTheRowsOfTheTable : Obligations.SinpiComputesTheRowsOfTheTable := by
  rintro x _ _ s hx hatt rfl rfl
  obtain ⟨t, hexec, hrsp, htrig⟩ := exec_sinpi_of_finite hx s
  refine ⟨t, hexec, by rw [hrsp]; rfl, ?_⟩
  have hans := trigAnswer_attached hatt
  rw [hrsp]
  generalize caseOf (fabs (fmod2 x)) = sel at htrig ⊢
  cases sel with
  | case0 => rfl
  | case1 | case3 | case5 => exact (htrig (by decide)).2.trans (hans _ _).1
  | case2 => exact congrArg (copySign · _) ((htrig (by decide)).2.trans (hans _ _).2)
  | case4 => exact congrArg (fneg <| copySign · _) ((htrig (by decide)).2.trans (hans _ _).2)

/-- Settles O47: off case 0 the fix-up leaves the magnitude of the answer, and in case 0 the answer is a zero. -/
theorem sinpiIsInRangeWhenTheTrigAnswerIs : Obligations.SinpiIsInRangeWhenTheTrigAnswerIs := by
  intro x s t hx hexec hrange
  obtain ⟨t', hexec', hrsp, htrig⟩ := exec_sinpi_of_finite hx s
  obtain rfl := Host.Outcome.next.inj (hexec.symm.trans hexec')
  rw [hrsp]
  refine ⟨rfl, ?_⟩
  dsimp only
  by_cases h0 : caseOf (fabs (fmod2 x)) = .case0
  · rw [h0, fixup, isFinite_copySign, abs_val_copySign, val_c0, abs_zero]
    exact ⟨rfl, zero_le_one⟩
  · obtain ⟨hfin, hval⟩ := fixup_magnitude h0 (fmod2 x) t.inp.tp
    rw [hfin, hval]
    exact hrange (htrig h0).1

/-! ## The trig request (R131) -/

theorem unitTrig_treq_iff (q : Request) :
    (unitTrig q).treq = true ↔ q.op = 5 ∧ isFinite q.a = true ∧ caseOf (fabs (fmod2 q.a)) ≠ .case0 := by
  unfold unitTrig
  split
  case isTrue h =>
    by_cases h0 : caseOf (fabs (fmod2 q.a)) = .case0
    · simp [trigRequestOf_of_case0 h0, h0, TrigOut.idle]
    · simp [trigRequestOf_of_ne_case0 h0, h0, h]
  case isFalse h => exact ⟨fun hreq => absurd hreq (by decide), fun ⟨hop, hfin, _⟩ => absurd ⟨hop, hfin⟩ h⟩

/-- The trig request, where there is one. -/
theorem unitTrig_of_request {q : Request} (h : (unitTrig q).treq = true) :
    unitTrig q =
      { treq := true
        tprim := primOf (caseOf (fabs (fmod2 q.a)))
        tu := mulPi (trigArg (caseOf (fabs (fmod2 q.a))) (fmod2 q.a) (fabs (fmod2 q.a))) } := by
  obtain ⟨hop, hfin, hne⟩ := (unitTrig_treq_iff q).mp h
  rw [unitTrig, if_pos ⟨hop, hfin⟩, trigRequestOf_of_ne_case0 hne]

theorem unitTrig_of_no_request {q : Request} (h : (unitTrig q).treq = false) : unitTrig q = TrigOut.idle := by
  unfold unitTrig trigRequestOf at h ⊢
  dsimp only at h ⊢
  split_ifs at h ⊢
  · rfl
  · rfl

/-- With a trig request the response is the fix-up of `TP`. -/
theorem unitResponse_of_request {q : Request} (h : (unitTrig q).treq = true) (tp : F64) :
    unitResponse q tp = { Response.zero with y := fixup (caseOf (fabs (fmod2 q.a))) (fmod2 q.a) tp } := by
  obtain ⟨hop, hfin, -⟩ := (unitTrig_treq_iff q).mp h
  simp [unitResponse, hop, isNaN_eq_false_of_isFinite hfin, isInf_eq_false_of_isFinite hfin]

/-- Without a trig request the value on `TP` has no effect. -/
theorem unitResponse_of_no_request {q : Request} (h : (unitTrig q).treq = false) (tp tp' : F64) :
    unitResponse q tp = unitResponse q tp' := by
  unfold unitResponse
  split
  case h_6 hop =>
    split
    case isTrue => rfl
    case isFalse hn =>
      split
      case isTrue => rfl
      case isFalse hi =>
        have hfin := isFinite_of_not_nan_inf (Bool.eq_false_iff.mpr hn) (Bool.eq_false_iff.mpr hi)
        have h0 : caseOf (fabs (fmod2 q.a)) = .case0 := by
          by_contra hne
          rw [(unitTrig_treq_iff q).mpr ⟨BitVec.eq_of_toNat_eq hop, hfin, hne⟩] at h
          cases h
        rw [h0]; rfl
  all_goals rfl

/-- Settles O48: a step answers as the stateless unit, whose request, and whose use of `TP`, are those of a `SINPI` of a
finite operand outside case 0. -/
theorem trigRequestOnlyFromSinpi : Obligations.TrigRequestOnlyFromSinpi := by
  intro s t hstep
  obtain ⟨m, rfl⟩ := eq_answer_of_step hstep
  refine ⟨unitTrig_treq_iff _, ?_, fun hno => ⟨unitTrig_of_no_request hno, fun tp => ?_⟩⟩
  · rintro hreq _ _ rfl rfl
    have hans (prim : Prim) (u : F64) (hu : unitTrig (fetch s).inp.req = { treq := true, tprim := prim, tu := u }) :
        ((fetch s).answer (fetch s).inp.req m).inp.tp = trigAnswer s.cfg prim u (fetch s).inp.tp := by
      rw [State.answer_tp, hu, tpAfter_of_request rfl, fetch_cfg]
    have htrig := unitTrig_of_request hreq
    rw [State.answer_trig, hans _ _ htrig, htrig, State.answer_rsp, unitResponse_of_request hreq, hans _ _ htrig]
    refine ⟨rfl, rfl, fun hatt hsin => ?_, fun hatt hcos => ?_, rfl⟩
    · rw [hsin]; exact (trigAnswer_attached hatt _ _).1
    · rw [hcos]; exact (trigAnswer_attached hatt _ _).2
  · obtain ⟨m', hm'⟩ := step_eq_answer (s.present { (fetch s).inp with tp := tp })
    exact ⟨_, hm', unitResponse_of_no_request hno _ _, rfl⟩

/-! ## Integers (R135) -/

theorem caseOf_eq_case0_iff (r : F64) : caseOf (fabs r) = .case0 ↔ |val r| = 0 ∨ |val r| = 1 := by
  rw [caseOf_eq_by_value, val_fabs, abs_abs]
  split
  case isTrue h => exact iff_of_true rfl h
  case isFalse h =>
    refine iff_of_false ?_ h
    split_ifs <;> decide

theorem exists_int_eq_abs_iff (v : ℚ) : (∃ n : ℤ, |v| = n) ↔ ∃ n : ℤ, v = n := by
  constructor
  · rintro ⟨n, hn⟩
    rcases abs_choice v with h | h
    · exact ⟨n, h ▸ hn⟩
    · exact ⟨-n, by rw [Int.cast_neg, ← hn, h, neg_neg]⟩
  · rintro ⟨n, rfl⟩
    exact ⟨|n|, Int.cast_abs.symm⟩

/-- A finite pattern is an integer exactly when its remainder by 2 is 0 or 1 in magnitude. -/
theorem case0_iff_integer {x : F64} (hx : isFinite x = true) :
    caseOf (fabs (fmod2 x)) = .case0 ↔ ∃ n : ℤ, val x = n := by
  obtain ⟨k, hk⟩ := exists_abs_val_eq_add_fmod2 hx
  have hlt := abs_val_fmod2_lt_two hx
  have hnonneg := abs_nonneg (val (fmod2 x))
  rw [caseOf_eq_case0_iff, ← exists_int_eq_abs_iff, hk]
  generalize |val (fmod2 x)| = a at hlt hnonneg ⊢
  constructor
  · rintro (rfl | rfl)
    · exact ⟨2 * k, by push_cast; ring⟩
    · exact ⟨2 * k + 1, by push_cast; ring⟩
  · rintro ⟨n, hn⟩
    obtain rfl : a = ((n - 2 * k : ℤ) : ℚ) := by push_cast; linarith
    norm_cast at hlt hnonneg ⊢
    omega

theorem integer_of_expo_ge {x : F64} (h : 1075 ≤ (expo x).toNat) : ∃ n : ℤ, val x = n := by
  obtain ⟨j, hj⟩ := Nat.exists_eq_add_of_le h
  rw [← exists_int_eq_abs_iff]
  refine ⟨((2 ^ 52 + (frac x).toNat) * 2 ^ j : ℕ), ?_⟩
  rw [abs_val, sig_of_normal (by omega), hj, show ((1075 + j : ℕ) : ℤ) - 1075 = j by push_cast; ring, zpow_natCast]
  push_cast; rfl

/-- Settles O44: the remainder of an integer is 0 or 1, and the zero of case 0 has the sign of the operand. -/
theorem sinpiOfAnIntegerIsASignedZero : Obligations.SinpiOfAnIntegerIsASignedZero := by
  intro x hx
  refine ⟨case0_iff_integer hx, integer_of_expo_ge, fun hint s => ?_⟩
  rw [exec_sinpi_of_case0 hx ((case0_iff_integer hx).mpr hint), copySign_eq_append, signOf_fmod2 hx]
  rfl

/-! ## Operands of opposite sign (R136) -/

theorem fabs_fneg (x : F64) : fabs (fneg x) = fabs x := f64_ext (by simp) (by simp) (by simp)

/-- The odd rows take the sign of `r` into their argument. -/
theorem rowArg_not {sel : Sel} (h : sel = .case1 ∨ sel = .case3 ∨ sel = .case5) (s : BitVec 1) (a : ℚ) :
    rowArg (~~~s) a sel = -rowArg s a sel := by
  have hs : ((-1) ^ (~~~s).toNat : ℚ) = -(-1) ^ s.toNat := by
    obtain rfl | rfl : s = 0 ∨ s = 1 := by revert s; decide
    · change (-1 : ℚ) ^ 1 = -(-1) ^ 0; norm_num
    · change (-1 : ℚ) ^ 0 = -(-1) ^ 1; norm_num
  rcases h with rfl | rfl | rfl
  · rw [rowArg, rowArg, hs, neg_mul]
  · rw [rowArg, rowArg, hs, neg_mul]
  · rw [rowArg, rowArg, hs, neg_mul]

theorem rowArg_ne_zero {a : ℚ} {sel : Sel} (s : BitVec 1) (hrow : Row a sel)
    (h : sel = .case1 ∨ sel = .case3 ∨ sel = .case5) : rowArg s a sel ≠ 0 := by
  rw [Ne, rowArg_eq_zero_iff s hrow (by rcases h with rfl | rfl | rfl <;> decide)]
  intro ha
  rcases h with rfl | rfl | rfl
  · cases hrow with | case1 hlow hhigh => rcases ha with rfl | rfl <;> linarith
  · cases hrow with | case3 hlow hhigh hne => rcases ha with rfl | rfl <;> linarith
  · cases hrow with | case5 hlow hhigh => rcases ha with rfl | rfl <;> linarith

theorem trigArg_fneg_of_sin {x : F64} (hx : isFinite x = true)
    (h : caseOf (fabs (fmod2 x)) = .case1 ∨ caseOf (fabs (fmod2 x)) = .case3 ∨ caseOf (fabs (fmod2 x)) = .case5) :
    trigArg (caseOf (fabs (fmod2 x))) (fneg (fmod2 x)) (fabs (fmod2 x)) =
      fneg (trigArg (caseOf (fabs (fmod2 x))) (fmod2 x) (fabs (fmod2 x))) := by
  have hval := val_trigArg hx
  have hval' := val_trigArg (x := fneg x) (by simpa using hx)
  rw [fmod2_fneg hx, fabs_fneg, signOf_fneg, val_fneg, abs_neg, rowArg_not h, ← hval, ← val_fneg] at hval'
  refine (eq_of_val_eq ?_ hval'.symm).symm
  rw [val_fneg, neg_ne_zero, hval]
  exact rowArg_ne_zero _ (row_of_finite hx) h

theorem trigArg_of_cos {sel : Sel} (h : sel = .case2 ∨ sel = .case4) (r r' ar : F64) :
    trigArg sel r ar = trigArg sel r' ar := by
  rcases h with rfl | rfl
  · rfl
  · rfl

/-- On the odd rows the answer is the sine itself. -/
theorem exec_sinpi_of_sin {x : F64} (hx : isFinite x = true)
    (h : caseOf (fabs (fmod2 x)) = .case1 ∨ caseOf (fabs (fmod2 x)) = .case3 ∨ caseOf (fabs (fmod2 x)) = .case5)
    {s : State} (hatt : s.cfg.trigAttached = true) :
    ∃ t, exec (.sinpi x) s = .next t ∧
      t.rsp.y = Config.sin64 (mulPi (trigArg (caseOf (fabs (fmod2 x))) (fmod2 x) (fabs (fmod2 x)))) := by
  obtain ⟨t, hexec, hrsp, htrig⟩ := exec_sinpi_of_finite hx s
  refine ⟨t, hexec, ?_⟩
  rw [hrsp]
  generalize caseOf (fabs (fmod2 x)) = sel at h htrig ⊢
  rcases h with rfl | rfl | rfl
  all_goals exact (htrig (by decide)).2.trans (trigAnswer_attached hatt _ _).1

/-- In the cases of no sine the answer changes sign with the operand, whatever the trig unit does. -/
theorem exec_sinpi_fneg {x : F64} (hx : isFinite x = true)
    (h : caseOf (fabs (fmod2 x)) = .case0 ∨ caseOf (fabs (fmod2 x)) = .case2 ∨ caseOf (fabs (fmod2 x)) = .case4)
    (s : State) : ∃ v w, exec (.sinpi x) s = .next v ∧ exec (.sinpi (fneg x)) s = .next w ∧ w.rsp.y = fneg v.rsp.y := by
  obtain ⟨v, hv, hrv, htv⟩ := exec_sinpi_of_finite hx s
  obtain ⟨w, hw, hrw, htw⟩ := exec_sinpi_of_finite (x := fneg x) (by simpa using hx) s
  rw [fmod2_fneg hx, fabs_fneg] at hrw htw
  have hfix : w.rsp.y = fneg (fixup (caseOf (fabs (fmod2 x))) (fmod2 x) w.inp.tp) := by rw [hrw, ← fixup_fneg h]
  refine ⟨v, w, hv, hw, ?_⟩
  rw [hfix, hrv]
  rcases h with h0 | hcos
  · rw [h0]; rfl
  · have hne : caseOf (fabs (fmod2 x)) ≠ .case0 := by rcases hcos with h | h <;> rw [h] <;> decide
    rw [(htw hne).2, (htv hne).2, trigArg_of_cos hcos (fneg (fmod2 x)) (fmod2 x)]

/-- Settles O45: the remainder changes sign and its magnitude does not; the argument of a sine follows, and the fix-up of a
cosine or a zero does. -/
theorem dispatcherIsOdd : Obligations.DispatcherIsOdd := by
  rintro x _ _ _ _ hx rfl rfl rfl rfl
  refine ⟨fmod2_fneg hx, fabs_fneg _, fun hsin => ⟨trigArg_fneg_of_sin hx hsin, mulPi_fneg _, fun s hatt => ?_⟩,
    fun hcos => trigArg_of_cos hcos _ _ _, fun heven s => exec_sinpi_fneg hx heven s⟩
  have hx' : isFinite (fneg x) = true := by simpa using hx
  obtain ⟨v, hv, hyv⟩ := exec_sinpi_of_sin hx hsin hatt
  obtain ⟨w, hw, hyw⟩ := exec_sinpi_of_sin hx' (by rwa [fmod2_fneg hx, fabs_fneg]) hatt
  rw [fmod2_fneg hx, fabs_fneg, trigArg_fneg_of_sin hx hsin, mulPi_fneg] at hyw
  exact ⟨v, w, hv, hw, by rw [hyv, hyw]⟩

/-! ## Operands an even integer apart (R137) -/

theorem fmod2_eq_of_even_difference {x x' : F64} {k : ℤ} (hx : isFinite x = true) (hx' : isFinite x' = true)
    (hs : signOf x = signOf x') (h : val x' = val x + 2 * k) : fmod2 x' = fmod2 x := by
  apply eq_of_signOf_abs_val
  · rw [signOf_fmod2 hx, signOf_fmod2 hx', hs]
  · obtain ⟨j, hj⟩ : ∃ j : ℤ, |val x'| = |val x| + 2 * j := by
      rcases signOf_cases x with h0 | h1
      · exact ⟨k, by rw [abs_val_of_sign_zero h0, abs_val_of_sign_zero (hs ▸ h0), h]⟩
      · refine ⟨-k, ?_⟩
        rw [abs_of_nonpos (val_nonpos_of_sign_one h1), abs_of_nonpos (val_nonpos_of_sign_one (hs ▸ h1)), h]
        push_cast; ring
    obtain ⟨n, hn⟩ := exists_abs_val_eq_add_fmod2 hx
    rw [abs_val_fmod2 hx']
    refine (eq_sub_two_mul_floor (n + j) ?_ (abs_nonneg _) (abs_val_fmod2_lt_two hx)).symm
    rw [hj, hn]; push_cast; ring

/-- Settles O46: the remainders are the same pattern, and the two operations see nothing else of a finite operand. -/
theorem sameSignPeriodIsBitExact : Obligations.SameSignPeriodIsBitExact := by
  intro x x' k hx hx' hs h
  have hr := fmod2_eq_of_even_difference hx hx' hs h
  refine ⟨hr, fun s => ⟨by rw [exec_rrd_of_finite hx', exec_rrd_of_finite hx, hr], ?_⟩⟩
  by_cases h0 : caseOf (fabs (fmod2 x)) = .case0
  · rw [exec_sinpi_of_case0 hx' (hr ▸ h0), exec_sinpi_of_case0 hx h0, hr]
  · rw [exec_sinpi_of_ne_case0 hx' (hr ▸ h0), exec_sinpi_of_ne_case0 hx h0, hr]

end Sys2Proof.Machine
end

section
/-! SUPPORT. 60_exceptions.md: the two exceptions, said once by the request that raises them. Such a request has one next
state, and no other request ends in a fault; the statements on exceptions follow. -/

namespace Sys2Proof.Machine

/-! ## The requests that raise an exception (R161, R163) -/

/-- Which exception a request raises, and with what information. -/
inductive Raises (q : Request) : Exc → BitVec 64 → Prop
  | invalidArgument (hop : q.op = 4 ∨ q.op = 5) (ha : isInf q.a = true) : Raises q .invalidArgument q.a
  | illegalOp (hop : q.op = 6 ∨ q.op = 7) : Raises q .illegalOp (q.op.setWidth 64)

theorem Answers.raises {q : Request} {r : Response} (h : Answers q r) (hr : r.status ≠ .ok) :
    ∃ e info, Raises q e info := by
  cases h with
  | decomp | compose | hiword | cpysgn | rrd | sinpi => exact absurd rfl hr
  | infinite hop ha => exact ⟨_, _, .invalidArgument hop ha⟩
  | reserved hop => exact ⟨_, _, .illegalOp hop⟩

/-! ## The step of a request that raises an exception (R166) -/

theorem decode_rrd {q : Request} (h : q.op = 4) : decode q = .instr (.rrd q.a) := by
  simp [decode, h]

theorem decode_sinpi {q : Request} (h : q.op = 5) : decode q = .instr (.sinpi q.a) := by
  simp [decode, h]

theorem decode_reserved {q : Request} (h : q.op = 6 ∨ q.op = 7) : decode q = .reservedOp q.op := by
  obtain ⟨op, hop⟩ := (decode_reserved_iff q).mpr h
  rw [hop, (op_of_decode_reserved hop).1]

theorem step_of_decode_reserved {s : State} {op : BitVec 3} (h : decode (fetch s).inp.req = .reservedOp op) :
    step s = .next ((fetch s).withOutputs (faultResponse .illegalOp (op.setWidth 64)) TrigOut.idle) := by
  simp only [step, h, rejectOp, raise, respond]

/-- Taking an exception sets the output ports and touches nothing else. -/
theorem step_of_raises {s : State} {e : Exc} {info : BitVec 64} (h : Raises (fetch s).inp.req e info) :
    step s = .next ((fetch s).withOutputs (faultResponse e info) TrigOut.idle) := by
  cases h with
  | invalidArgument hop ha =>
    rcases hop with hop | hop
    · rw [step_of_decode_instr (decode_rrd hop), exec_rrd_of_isInf ha]
    · rw [step_of_decode_instr (decode_sinpi hop), exec_sinpi_of_isInf ha]
  | illegalOp hop => exact step_of_decode_reserved (decode_reserved hop)

/-- A step that ends in a fault took an exception its request raises. -/
theorem raises_of_step {s t : State} (h : step s = .next t) (ht : t.rsp.status ≠ .ok) :
    ∃ e info, Raises (fetch s).inp.req e info ∧ t = (fetch s).withOutputs (faultResponse e info) TrigOut.idle := by
  obtain ⟨e, info, hraise⟩ := (step_answers h).raises ht
  exact ⟨e, info, hraise, Host.Outcome.next.inj (h.symm.trans (step_of_raises hraise))⟩

theorem status_ok_of_not_raises {s t : State} (h : step s = .next t)
    (hq : ∀ e info, ¬ Raises (fetch s).inp.req e info) : t.rsp.status = .ok := by
  by_contra ht
  obtain ⟨e, info, hraise, -⟩ := raises_of_step h ht
  exact hq e info hraise

/-! ## Each exception by itself (R161 to R163) -/

/-- Settles O52: a reserved code raises the exception, whose step is known. -/
theorem reservedCodeRaisesIllegalOp : Obligations.ReservedCodeRaisesIllegalOp :=
  fun _ hop => step_of_raises (.illegalOp hop)

/-- Of the two exceptions only `InvalidArgument` has its status; `EINFO` is then the operand. -/
theorem invalidArg_inv {s t : State} (h : step s = .next t) (ht : t.rsp.status = .invalidArg) :
    ((fetch s).inp.req.op = 4 ∨ (fetch s).inp.req.op = 5) ∧ isInf (fetch s).inp.req.a = true ∧
      t.rsp.einfo = (fetch s).inp.req.a := by
  obtain ⟨e, info, hraise, rfl⟩ := raises_of_step h (by rw [ht]; decide)
  cases hraise with
  | invalidArgument hop ha => exact ⟨hop, ha, rfl⟩
  | illegalOp => cases ht

/-- Settles O50: the status comes from `InvalidArgument` alone, and an infinity raises that. -/
theorem invalidArgumentExactlyForInfinities : Obligations.InvalidArgumentExactlyForInfinities := by
  intro s t h
  rw [← isInf_iff_pattern]
  refine ⟨⟨fun ht => ?_, fun ⟨hop, ha⟩ => (step_answers h).invalidArg_of_isInf hop ha⟩, fun ht => ?_, rfl⟩
  · obtain ⟨hop, ha, -⟩ := invalidArg_inv h ht
    exact ⟨hop, ha⟩
  · obtain ⟨-, -, hinfo⟩ := invalidArg_inv h ht
    exact hinfo

theorem not_raises_of_isNaN {q : Request} (ha : isNaN q.a = true) (h6 : q.op ≠ 6) (h7 : q.op ≠ 7) (e : Exc)
    (info : BitVec 64) : ¬ Raises q e info := by
  rintro (⟨-, hi⟩ | hop)
  · simp [isInf_eq_false_of_isNaN ha] at hi
  · exact hop.elim h6 h7

theorem not_raises_of_word_op {q : Request} (hop : q.op = 0 ∨ q.op = 1 ∨ q.op = 2 ∨ q.op = 3) (e : Exc)
    (info : BitVec 64) : ¬ Raises q e info := by
  have hcodes : ∀ op : BitVec 3, op = 0 ∨ op = 1 ∨ op = 2 ∨ op = 3 → ¬(op = 4 ∨ op = 5) ∧ ¬(op = 6 ∨ op = 7) := by
    decide
  obtain ⟨h45, h67⟩ := hcodes _ hop
  rintro (⟨hrange, -⟩ | hres)
  · exact h45 hrange
  · exact h67 hres

/-- Settles O51: neither a NaN nor a word operation raises an exception, and the two range-reduction operations have their
own next state for a NaN. -/
theorem nanIsNoException : Obligations.NaNIsNoException := by
  intro s t h
  refine ⟨fun h6 h7 ha => status_ok_of_not_raises h (not_raises_of_isNaN ha h6 h7),
    fun hop => status_ok_of_not_raises h (not_raises_of_word_op hop), fun hop ha => ?_, fun hop ha => ?_⟩
  · rw [step_of_decode_instr (decode_sinpi hop), exec_sinpi_of_isNaN ha] at h
    obtain rfl := Host.Outcome.next.inj h
    exact ⟨rfl, rfl⟩
  · rw [step_of_decode_instr (decode_rrd hop), exec_rrd_of_isNaN ha] at h
    obtain rfl := Host.Outcome.next.inj h
    exact ⟨rfl, rfl⟩

/-! ## What a fault leaves behind (R166, R168) -/

/-- Settles O53: an exception sets the output ports alone, and its response has no field but status and information. -/
theorem aFaultHasNoEffectButItsResponse : Obligations.AFaultHasNoEffectButItsResponse := by
  intro s t h ht
  obtain ⟨e, info, -, rfl⟩ := raises_of_step h ht
  rfl

/-- Settles O54: the request still stands on the ports, raises the same exception again, and the same output ports are
written over themselves. -/
theorem aRepeatedRequestFaultsAgain : Obligations.ARepeatedRequestFaultsAgain := by
  intro s t h ht hpending
  obtain ⟨e, info, hraise, rfl⟩ := raises_of_step h ht
  have hfetch := fetch_of_empty _ hpending
  rw [step_of_raises (by rw [hfetch]; exact hraise), hfetch]
  rfl

end Sys2Proof.Machine
end

section
/-! SUPPORT. 70_reset_and_hazards.md: every transaction ends with a response, and what the trig port does with no trig unit
attached. -/

namespace Sys2Proof.Machine

/-- Settles O9: every step answers as the stateless unit. -/
theorem stepAlwaysAnswersANextState : Obligations.StepAlwaysAnswersANextState := by
  intro s
  obtain ⟨m, hm⟩ := step_eq_answer s
  exact ⟨_, hm⟩

/-! ## The trig port with no trig unit attached (R182) -/

/-- With no trig unit the exchange makes its response of the wire's own value and sets the output ports alone. -/
theorem exchange_of_not_attached {s : State} (h : s.cfg.trigAttached = false) (prim : Prim) (u : F64)
    (k : F64 → Response) :
    exchange prim u k s = .next (s.withOutputs (k s.inp.tp) { treq := true, tprim := prim, tu := u }) := by
  simp only [exchange, trigAnswer_absent h, State.withTp_self]

/-- Without a trig request two machines that present the same inputs have the same outputs, whatever else tells them
apart: the unit's answer then does not depend on `TP`. -/
theorem step_outputs_of_no_request {s t : State} {i : Inputs} (h : step (s.present i) = .next t)
    (hno : t.trig.treq = false) (s' : State) :
    ∃ t', step (s'.present i) = .next t' ∧ t'.rsp = t.rsp ∧ t'.trig = t.trig := by
  obtain ⟨m, rfl⟩ := eq_answer_of_step h
  obtain ⟨m', hm'⟩ := step_eq_answer (s'.present i)
  exact ⟨_, hm', unitResponse_of_no_request hno _ _, rfl⟩

/-- Settles O49: off case 0 a `SINPI` is one exchange, which takes the wire; no other transaction sees it. -/
theorem withoutATrigUnitTheWireIsTaken : Obligations.WithoutATrigUnitTheWireIsTaken := by
  refine ⟨fun x s hx hatt hne => ?_, fun s s' t i hstep hno => step_outputs_of_no_request hstep hno s'⟩
  rw [exec_sinpi_of_ne_case0 hx hne, exchange_of_not_attached hatt]
  exact ⟨_, rfl, rfl, rfl⟩

end Sys2Proof.Machine
end

section
/-! SUPPORT. 95_test_vectors.md: the decoder on a request written as a number, and the words of section 2.6 and of the
programs. -/

namespace Sys2Proof

/-! ## Requests as numbers (R80) -/

/-- A packed request, written as a number, is read as the instruction it decodes to: 136 bits leave the number whole. -/
theorem decodeTableWord_toNat_eq_some_iff (w : BitVec 131) (i : Instr) :
    decodeTableWord 136 w.toNat = some i ↔ decodeBits w = .instr i := by
  have hmod : w.toNat % 2 ^ 136 = w.toNat := Nat.mod_eq_of_lt (by omega)
  rw [decodeTableWord, hmod, if_pos w.isLt, BitVec.ofNat_toNat, BitVec.setWidth_eq]
  cases decodeBits w with
  | instr j => simp
  | reservedOp op => simp

/-- The number of an instruction's encoding is read as that instruction. -/
theorem decodeTableWord_encodeBits (i : Instr) : decodeTableWord 136 (encodeBits i).toNat = some i := by
  rw [decodeTableWord_toNat_eq_some_iff, decodeBits, encodeBits, Request.unpack_pack, decode_encode]

/-- A number whose code bits are 6 or 7 is read as no instruction (R87). -/
theorem decodeTableWord_of_reserved {w : BitVec 131}
    (h : w &&& 7#131 <<< 128 = 6#131 <<< 128 ∨ w &&& 7#131 <<< 128 = 7#131 <<< 128) :
    decodeTableWord 136 w.toNat = none := by
  obtain ⟨op, hop⟩ := (decodeBits_reserved_iff w).mpr h
  refine Option.eq_none_iff_forall_ne_some.mpr fun i hi => ?_
  rw [decodeTableWord_toNat_eq_some_iff, hop] at hi
  cases hi

/-! ## The words of the test vectors -/

/-- Settles O3: the first six words are encodings of their instructions, and the last two have the codes 6 and 7. -/
theorem wordsOfTheTestVectorsDecode : Obligations.WordsOfTheTestVectorsDecode :=
  ⟨decodeTableWord_encodeBits (.decomp 0xFFF123456789ABCD#64),
   decodeTableWord_encodeBits (.compose 0xFFF12345#32 0x6789ABCD#32),
   decodeTableWord_encodeBits (.hiword 0xBFF0000000000001#64),
   decodeTableWord_encodeBits (.cpysgn 0x3FD5555555555555#64 0x8000000000000000#64),
   decodeTableWord_encodeBits (.rrd 0xBFEC000000000000#64),
   decodeTableWord_encodeBits (.sinpi 0x3FD5555555555555#64),
   decodeTableWord_of_reserved (w := 0x600000000000000000000000000000000#131) (.inl (by decide)),
   decodeTableWord_of_reserved (w := 0x77FF00000000000007FF8000000000000#131) (.inr (by decide))⟩

end Sys2Proof
end
